-- ==== Sys2Proof/Word.lean ====
section
/-! DEFINITION. The widths of the block: 64-bit words and limbs, 256-bit element values, 4-bit register indices. -/

namespace Sys2Proof

/-- A 64-bit register, limb or command word (R7, R22, R58). -/
abbrev Word := BitVec 64

/-- A 256-bit element value: four 64-bit limbs, least-significant limb first (R7, R9, R17). -/
abbrev Elem := BitVec 256

/-- An element register index: every value 0..15 names a register (R60). -/
abbrev Reg := Fin 16

/-- Four 64-bit registers that together carry one 256-bit value, limb k in register k (R28, R29, R45). -/
structure Limbs where
  l0 : Word
  l1 : Word
  l2 : Word
  l3 : Word
  deriving DecidableEq, Repr

end Sys2Proof
end

