-- ==== Sys2Proof/Syntax.lean ====
section
/-! DEFINITION. The commands of the block, one constructor per row of spec/opcode_table.json. -/

namespace Sys2Proof

/-- A command, "montgomery_multiplier command set, revision 1" (R2, R64). Each constructor carries the fields of the
column "uses" of R64, in the order of the assembler syntax (R67): destination, sources, immediate. -/
inductive Instr where
  | nop
  | ld (rd : Reg)
  | ldr (rd : Reg)
  | ldu64 (rd : Reg)
  | st (rs1 : Reg)
  | str (rs1 : Reg)
  | zero (rd : Reg)
  | one (rd : Reg)
  | mov (rd rs1 : Reg)
  | add (rd rs1 rs2 : Reg)
  | dbl (rd rs1 : Reg)
  | sub (rd rs1 rs2 : Reg)
  | neg (rd rs1 : Reg)
  | halve (rd rs1 : Reg)
  | mul (rd rs1 rs2 : Reg)
  | sqr (rd rs1 : Reg)
  | tomont (rd rs1 : Reg)
  | frommont (rd rs1 : Reg)
  | mulc (rd rs1 : Reg) (c : BitVec 32)
  | exp (rd rs1 : Reg)
  | leg (rs1 : Reg)
  | inv (rd rs1 : Reg)
  | div (rd rs1 rs2 : Reg)
  | binv (rd rs1 : Reg) (n : BitVec 32)
  | sqrt (rd rs1 : Reg)
  | cmp (rs1 rs2 : Reg)
  deriving DecidableEq, Repr

end Sys2Proof
end

