-- ==== Sys2Proof/WellFormed.lean ====
section
/-! DEFINITION. The one condition on a command that its fields' widths do not already give: BINV's ranges (R105). -/

namespace Sys2Proof

/-- BINV's source range F[RS1 .. RS1+n-1] and destination range F[RD .. RD+n-1] lie in the register file: the negation of
"n > 16, RS1 + n > 16 or RD + n > 16" (R105, R112). -/
def binvRangesFit (rd rs1 : Reg) (n : BitVec 32) : Bool :=
  decide (n.toNat ≤ 16) && decide (rs1.val + n.toNat ≤ 16) && decide (rd.val + n.toNat ≤ 16)

/-- A command word that decodes to a well-formed command is never refused as BAD_RANGE (R105, R115). -/
def WellFormed : Instr → Bool
  | .binv rd rs1 n => binvRangesFit rd rs1 n
  | .nop | .ld _ | .ldr _ | .ldu64 _ | .st _ | .str _ | .zero _ | .one _ | .mov _ _
  | .add _ _ _ | .dbl _ _ | .sub _ _ _ | .neg _ _ | .halve _ _
  | .mul _ _ _ | .sqr _ _ | .tomont _ _ | .frommont _ _ | .mulc _ _ _
  | .exp _ _ | .leg _ | .inv _ _ | .div _ _ _ | .sqrt _ _ | .cmp _ _ => true

end Sys2Proof
end

