-- ==== Sys2Proof/Decode.lean ====
section
/-! DEFINITION. The command word: its fields, the decoder and the encoder (spec/30_encoding.md). -/

namespace Sys2Proof

/-- The six fields of a command word (R59). -/
structure Fields where
  opc : BitVec 8
  rd : BitVec 4
  rs1 : BitVec 4
  rs2 : BitVec 4
  rsv : BitVec 12
  imm : BitVec 32
  deriving DecidableEq, Repr

/-- Why a word is no command (R65). Both are refused at issue as ILLEGAL (R115). -/
inductive DecodeReject where
  /-- w[7:0] is not an OPC of the opcode map. -/
  | unknownOpcode
  /-- w[31:20] is not 0. -/
  | reservedFieldSet
  deriving DecidableEq, Repr

/-- The fields of a word: OPC 7:0, RD 11:8, RS1 15:12, RS2 19:16, RSV 31:20, IMM 63:32 (R59). -/
def fieldsOf (w : Word) : Fields where
  opc := w.extractLsb' 0 8
  rd := w.extractLsb' 8 4
  rs1 := w.extractLsb' 12 4
  rs2 := w.extractLsb' 16 4
  rsv := w.extractLsb' 20 12
  imm := w.extractLsb' 32 32

/-- The word of the fields: w = OPC | (RD << 8) | (RS1 << 12) | (RS2 << 16) | (IMM << 32), with RSV at 31:20 (R59). -/
def wordOf (x : Fields) : Word :=
  x.opc.setWidth 64 ||| x.rd.setWidth 64 <<< 8 ||| x.rs1.setWidth 64 <<< 12 ||| x.rs2.setWidth 64 <<< 16
    ||| x.rsv.setWidth 64 <<< 20 ||| x.imm.setWidth 64 <<< 32

/-- A 4-bit field as a register index (R60). -/
def regOf (b : BitVec 4) : Reg := b.toFin

/-- A register index as a 4-bit field (R60). -/
def bitsOf (r : Reg) : BitVec 4 := BitVec.ofFin r

/-- The opcode map (R64): the command that OPC selects, from the fields it uses. The fields it does not use are ignored
(R63). -/
def commandOf (x : Fields) : Option Instr :=
  match x.opc with
  | 0x00#8 => some .nop
  | 0x01#8 => some (.ld (regOf x.rd))
  | 0x02#8 => some (.ldr (regOf x.rd))
  | 0x03#8 => some (.ldu64 (regOf x.rd))
  | 0x04#8 => some (.st (regOf x.rs1))
  | 0x05#8 => some (.str (regOf x.rs1))
  | 0x06#8 => some (.zero (regOf x.rd))
  | 0x07#8 => some (.one (regOf x.rd))
  | 0x08#8 => some (.mov (regOf x.rd) (regOf x.rs1))
  | 0x10#8 => some (.add (regOf x.rd) (regOf x.rs1) (regOf x.rs2))
  | 0x11#8 => some (.dbl (regOf x.rd) (regOf x.rs1))
  | 0x12#8 => some (.sub (regOf x.rd) (regOf x.rs1) (regOf x.rs2))
  | 0x13#8 => some (.neg (regOf x.rd) (regOf x.rs1))
  | 0x14#8 => some (.halve (regOf x.rd) (regOf x.rs1))
  | 0x18#8 => some (.mul (regOf x.rd) (regOf x.rs1) (regOf x.rs2))
  | 0x19#8 => some (.sqr (regOf x.rd) (regOf x.rs1))
  | 0x1A#8 => some (.tomont (regOf x.rd) (regOf x.rs1))
  | 0x1B#8 => some (.frommont (regOf x.rd) (regOf x.rs1))
  | 0x1C#8 => some (.mulc (regOf x.rd) (regOf x.rs1) x.imm)
  | 0x20#8 => some (.exp (regOf x.rd) (regOf x.rs1))
  | 0x21#8 => some (.leg (regOf x.rs1))
  | 0x28#8 => some (.inv (regOf x.rd) (regOf x.rs1))
  | 0x29#8 => some (.div (regOf x.rd) (regOf x.rs1) (regOf x.rs2))
  | 0x2A#8 => some (.binv (regOf x.rd) (regOf x.rs1) x.imm)
  | 0x30#8 => some (.sqrt (regOf x.rd) (regOf x.rs1))
  | 0x38#8 => some (.cmp (regOf x.rs1) (regOf x.rs2))
  | _ => none

/-- The decoder, total on every 64-bit word: a command, or a rejection by name (R64, R65). -/
def decode (w : Word) : Except DecodeReject Instr :=
  if (fieldsOf w).rsv = 0#12 then
    match commandOf (fieldsOf w) with
    | some i => .ok i
    | none => .error .unknownOpcode
  else .error .reservedFieldSet

/-- The OPC of a command (R64). -/
def opcodeOf : Instr → BitVec 8
  | .nop => 0x00#8
  | .ld _ => 0x01#8
  | .ldr _ => 0x02#8
  | .ldu64 _ => 0x03#8
  | .st _ => 0x04#8
  | .str _ => 0x05#8
  | .zero _ => 0x06#8
  | .one _ => 0x07#8
  | .mov _ _ => 0x08#8
  | .add _ _ _ => 0x10#8
  | .dbl _ _ => 0x11#8
  | .sub _ _ _ => 0x12#8
  | .neg _ _ => 0x13#8
  | .halve _ _ => 0x14#8
  | .mul _ _ _ => 0x18#8
  | .sqr _ _ => 0x19#8
  | .tomont _ _ => 0x1A#8
  | .frommont _ _ => 0x1B#8
  | .mulc _ _ _ => 0x1C#8
  | .exp _ _ => 0x20#8
  | .leg _ => 0x21#8
  | .inv _ _ => 0x28#8
  | .div _ _ _ => 0x29#8
  | .binv _ _ _ => 0x2A#8
  | .sqrt _ _ => 0x30#8
  | .cmp _ _ => 0x38#8

/-- The fields of a command's word. "Unused fields are encoded as 0 by an assembler" (R67); RSV is 0 (R59). -/
def encodedFields (i : Instr) : Fields :=
  match i with
  | .nop => ⟨opcodeOf i, 0#4, 0#4, 0#4, 0#12, 0#32⟩
  | .ld rd | .ldr rd | .ldu64 rd | .zero rd | .one rd => ⟨opcodeOf i, bitsOf rd, 0#4, 0#4, 0#12, 0#32⟩
  | .st rs1 | .str rs1 | .leg rs1 => ⟨opcodeOf i, 0#4, bitsOf rs1, 0#4, 0#12, 0#32⟩
  | .mov rd rs1 | .dbl rd rs1 | .neg rd rs1 | .halve rd rs1 | .sqr rd rs1 | .tomont rd rs1 | .frommont rd rs1
  | .exp rd rs1 | .inv rd rs1 | .sqrt rd rs1 => ⟨opcodeOf i, bitsOf rd, bitsOf rs1, 0#4, 0#12, 0#32⟩
  | .add rd rs1 rs2 | .sub rd rs1 rs2 | .mul rd rs1 rs2 | .div rd rs1 rs2 =>
      ⟨opcodeOf i, bitsOf rd, bitsOf rs1, bitsOf rs2, 0#12, 0#32⟩
  | .mulc rd rs1 imm | .binv rd rs1 imm => ⟨opcodeOf i, bitsOf rd, bitsOf rs1, 0#4, 0#12, imm⟩
  | .cmp rs1 rs2 => ⟨opcodeOf i, 0#4, bitsOf rs1, bitsOf rs2, 0#12, 0#32⟩

/-- The encoder: the 64-bit word of a command (R59, R64, R67). -/
def encode (i : Instr) : Word := wordOf (encodedFields i)

/-- The bits of a command's word that the command uses: OPC and its fields in the column "uses" (R63, R64). -/
def usedMask : Instr → Word
  | .nop => 0x00000000000000FF#64
  | .ld _ | .ldr _ | .ldu64 _ | .zero _ | .one _ => 0x0000000000000FFF#64
  | .st _ | .str _ | .leg _ => 0x000000000000F0FF#64
  | .mov _ _ | .dbl _ _ | .neg _ _ | .halve _ _ | .sqr _ _ | .tomont _ _ | .frommont _ _
  | .exp _ _ | .inv _ _ | .sqrt _ _ => 0x000000000000FFFF#64
  | .add _ _ _ | .sub _ _ _ | .mul _ _ _ | .div _ _ _ => 0x00000000000FFFFF#64
  | .mulc _ _ _ | .binv _ _ _ => 0xFFFFFFFF0000FFFF#64
  | .cmp _ _ => 0x00000000000FF0FF#64

/-- The word whose bits are those of w, numbered as spec/opcode_table.json numbers them: one 64-bit word, every bit at or
above nbits 0 (R58). -/
def tableWord (nbits w : Nat) : Word := BitVec.ofNat 64 (w % 2 ^ nbits)

/-- The command the decoder reads from an opcode-table word; a command is one 64-bit word (R58), so more bits than that are
no command. -/
def decodeTableWord (nbits w : Nat) : Option Instr :=
  if nbits ≤ 64 then
    match decode (tableWord nbits w) with
    | .ok i => some i
    | .error _ => none
  else none

end Sys2Proof
end

