-- ==== Sys2Proof/Config.lean ====
section
/-! DEFINITION. The constants of the block: the modulus, the radix, the constant ROM and the platform's base address. -/

namespace Sys2Proof.Config

/-- The modulus, ROM constant Q (R6, R32). -/
def q : Nat := 0x196deac24a9da12b25fc7ec9cf927a98c8c480ece644e36419d0c5fd00c00001

/-- The limb base 2^64 (R7, R9). -/
def W : Nat := 0x10000000000000000

/-- The Montgomery radix R = 2^256 (R7). -/
def R : Nat := 0x10000000000000000000000000000000000000000000000000000000000000000

/-- The limbs of q, least-significant first (R6). -/
def qLimbs : List Nat := [0x19d0c5fd00c00001, 0xc8c480ece644e364, 0x25fc7ec9cf927a98, 0x196deac24a9da12b]

/-- ROM constant RSQ = R^2 mod q (R32). -/
def RSQ : Nat := 0x081d245007d35a5a9799359271b08283eb3f198d55a12c3f56a1ff2e50fc8851

/-- ROM constant QINV = -q^-1 mod 2^64 (R32). -/
def QINV : Nat := 0x1e5035fd00bfffff

/-- ROM constant ONE = R mod q, the Montgomery form of 1 (R32). -/
def ONE : Nat := 0x01b4d46915d7b45084230c1de44736082852f6bf014f1e16fdd8441df87ffff6

/-- ROM constant LEGEXP = (q-1)/2 (R32). -/
def LEGEXP : Nat := 0x0cb6f561254ed09592fe3f64e7c93d4c64624076732271b20ce862fe80600000

/-- ROM constant S, the 2-adic valuation of q-1 (R32). -/
def S : Nat := 22

/-- ROM constant T = (q-1)/2^S, odd (R32). -/
def T : Nat := 0x00000065b7ab092a7684ac97f1fb273e49ea63231203b399138d90674317f403

/-- ROM constant SQRTEXP = (T-1)/2 (R32). -/
def SQRTEXP : Nat := 0x00000032dbd584953b42564bf8fd939f24f531918901d9cc89c6c833a18bfa01

/-- The default of the parameter SQRT_G: Mont(7^T), 7 the least quadratic non-residue (R8, R32, R33).
The value in force is `State.sqrtG` (log 4). -/
def sqrtGDefault : Elem := 0x002e1c91cf663e7c80ec632543b1e463fc4fd5481e59084825207d1f93553fa6#256

/-- The number of the 256-byte page that holds the register window: an OPEN parameter of the platform (R8, R38; log 3).
It has no body, so no proof can see its value. -/
opaque mmioPage : Nat

/-- MMIO_BASE, "which must be a multiple of 256" (R38). -/
def mmioBase : Nat := 256 * mmioPage

/-- Montgomery form of a regular value: Mont(v) = (v·R) mod q (R13). -/
def mont (v : Nat) : Nat := v * R % q

/-- q^-1 mod R, the factor of R87's multiplier M = (-x·y·q^-1) mod R; computed from q as R32's QINV is from q
modulo 2^64; the spec gives no digits of it (PRESUMED, safe: its law is proved, log 7). -/
def qInvR : Nat := 0xd4870f84363af923011e64f24d9dea0fa71a91e9dcc64161e1afca02ff400001

/-- R^-1 mod q, the factor of Reg(s) = (s·R^-1) mod q (R13; the value stands in 95_test_vectors.md's constants). -/
def rInv : Nat := 0x045179d8058c44da27d10e7e0826b89f507bab354d12c2fdff600e8f38305951

/-- The regular value a stored value represents: Reg(s) = (s·R^-1) mod q (R13). -/
def reg (s : Nat) : Nat := s * rInv % q

end Sys2Proof.Config
end

