-- ==== Sys2Proof/Machine/State.lean ====
section
/-! DEFINITION. The state of the block as plain data, the reasons a step can stop, and the state after reset. -/

namespace Sys2Proof.Machine

/-- The value of STATUS.ERRCODE. The codes 5-15 are reserved and never produced, so they have no name here (R115; DEDUCED, safe, log 21). -/
inductive ErrCode where
  /-- 0: no error since ERR was cleared. -/
  | noError
  /-- 1: OPC not in the opcode map, or RSV not 0. -/
  | illegal
  /-- 2: BINV with a range that passes F[15] or n > 16. -/
  | badRange
  /-- 3: LD with DIN ≥ q. -/
  | noncanonical
  /-- 4: CMD written while BUSY = 1. -/
  | busy
  deriving DecidableEq, Repr

/-- One thing that reaches the block, in arrival order (R16, R49). Accesses name the window offset o of the host address
MMIO_BASE + o (R38). -/
inductive Arrival where
  /-- The host reads `width` bytes at a window offset (R41, R42). -/
  | read (width : Nat) (off : BitVec 8)
  /-- The host writes `width` bytes at a window offset (R41, R42). -/
  | write (width : Nat) (off : BitVec 8) (v : Word)
  /-- The host's WAIT: it polls STATUS until BUSY is 0 (R68). -/
  | wait
  /-- The engine's completion falls here, if a command is in flight (R114, R130; log 1). -/
  | engine
  /-- The platform's reset input (R123). -/
  | reset
  deriving DecidableEq, Repr

/-- Why a step can stop with a fault. No state that a run reaches from reset raises one (R117); each is safe, since the
model only stops there. -/
inductive Fault where
  /-- Raised by `step` at a completion whose L.CMD is no command of the opcode map: no accepted issue latches one (R112).
  Safe (log 9). -/
  | latchedWordIsNoCommand
  /-- Raised by BINV at a completion whose latched ranges pass F[15]: no accepted issue latches one (R105, R112).
  Safe (log 10). -/
  | latchedRangeTooLong
  /-- Raised by INV, DIV and BINV when the binary GCD does not end, which it does not on a non-zero multiple of q: "a model
  that let one in would be `stuck`" (R102, 93_implementation_defined.md I11). Safe (log 11). -/
  | inverseDoesNotEnd
  /-- Raised by SQRT when a loop of SqrtTS does not end, which needs an operand that is not below q or an SQRT_G that is not
  of order 2^22 (R108). Safe (log 12). -/
  | squareRootDoesNotEnd
  deriving DecidableEq, Repr

/-- Why a step can be refused. -/
inductive Refusal where
  /-- An instruction of the opcode table that has no meaning yet; raised by `exec` alone. Safe. -/
  | notModelled (mnemonic : String)
  /-- A host access of a width other than 8 bytes or at an offset that is not a multiple of 8; raised by `step`. "The block
  gives it no meaning; a model refuses it" (R42). Safe (log 5). -/
  | undefinedHostAccess (width : Nat) (off : BitVec 8)
  deriving DecidableEq, Repr

/-- Everything the spec gives the block (R17-R37, R124), and the two lists through which the outside world meets it. -/
structure State where
  /-- The element registers F[0] .. F[15] (R17). -/
  f : Vector Elem 16
  /-- STATUS.BUSY (R24). -/
  busy : Bool
  /-- STATUS.DONE (R24). -/
  done : Bool
  /-- STATUS.ERR (R24). -/
  err : Bool
  /-- STATUS.ABSENT (R24). -/
  absent : Bool
  /-- STATUS.ERRCODE (R24, R115). -/
  errCode : ErrCode
  /-- CTRL.IE (R26). -/
  ie : Bool
  /-- RESULT (R27). -/
  result : Word
  /-- DIN0 .. DIN3 (R28). -/
  din : Limbs
  /-- DOUT0 .. DOUT3 (R29). -/
  dout : Limbs
  /-- L.CMD, the latched command word (R34, R35). -/
  lcmd : Word
  /-- L.DIN, the latched data in (R34, R35). -/
  ldin : Elem
  /-- The ROM constant SQRT_G, the one that depends on a parameter; no step changes it (R8, R32, R33; log 4). -/
  sqrtG : Elem
  /-- What is still to reach the block, first to arrive first (the model's own; log 1). -/
  agenda : List Arrival
  /-- The values the host's reads returned, the last one first (the model's own; log 13). -/
  reads : List Word
  deriving DecidableEq, Repr

/-- Every item of state right after reset (R124): all zero, the ROM constant SQRT_G at its default, nothing to arrive. -/
def State.reset : State where
  f := Vector.replicate 16 0#256
  busy := false
  done := false
  err := false
  absent := false
  errCode := .noError
  ie := false
  result := 0#64
  din := ⟨0#64, 0#64, 0#64, 0#64⟩
  dout := ⟨0#64, 0#64, 0#64, 0#64⟩
  lcmd := 0#64
  ldin := 0#256
  sqrtG := Config.sqrtGDefault
  agenda := []
  reads := []

/-- Who takes the next step: a host access, a WAIT or a reset, already carried out, or the engine on the given state. -/
inductive Turn where
  | settled (o : Host.Outcome State Fault Refusal)
  | engine (s : State)

end Sys2Proof.Machine
end

