-- ==== Sys2Proof/Machine/Operands.lean ====
section
/-! DEFINITION. The operand forms: element registers and their ranges, the latched data in, the immediate, and the limbs of a
256-bit value. -/

namespace Sys2Proof.Machine
open Sys2Proof

/-! ## Limbs (R9, R28, R45) -/

/-- The 256-bit value that four registers carry: DIN = DIN3||DIN2||DIN1||DIN0, and DOUT likewise (R10, R28, R29). -/
def limbsValue (l : Limbs) : Elem := l.l3 ++ l.l2 ++ l.l1 ++ l.l0

/-- The four limbs of a value: limb k is v[64k+63:64k] (R9, R45). -/
def limbsOfElem (v : Elem) : Limbs where
  l0 := v.extractLsb' 0 64
  l1 := v.extractLsb' 64 64
  l2 := v.extractLsb' 128 64
  l3 := v.extractLsb' 192 64

/-- A natural number as a stored 256-bit value. Every result the rules store is below q, so nothing is cut off (R20);
for operands that are not below q see log 17 (DESIGN CHOICE, unsafe there). -/
def elemOf (n : Nat) : Elem := BitVec.ofNat 256 n

/-! ## Element registers (R17, R18, R60) -/

/-- F[r] as the natural number that the primitives take (R9, R13). -/
def State.reg (s : State) (r : Reg) : Nat := (s.f[r.val]).toNat

/-- F[r] <- n. No element register is hard-wired (R18). -/
def State.setReg (s : State) (r : Reg) (n : Nat) : State := { s with f := s.f.set r.val (elemOf n) }

/-- F[first .. first+n-1], a BINV source range (R105). -/
def State.regRange (s : State) (first : Reg) (n : Nat) : List Nat :=
  ((s.f.toList.drop first.val).take n).map BitVec.toNat

/-- F[k], F[k+1], ... <- the values, in order (R106). -/
def writeFrom (k : Nat) : List Nat → Vector Elem 16 → Vector Elem 16
  | [], f => f
  | n :: ns, f => writeFrom (k + 1) ns (f.setIfInBounds k (elemOf n))

/-- F[first .. ] <- the values, a BINV destination range (R105, R106). -/
def State.setRange (s : State) (first : Reg) (ns : List Nat) : State := { s with f := writeFrom first.val ns s.f }

/-! ## Implicit operands and the immediate (R61, R62) -/

/-- L.DIN as a natural number: the operand of LD and LDR, the exponent of EXP (R62). -/
def State.latchedDin (s : State) : Nat := s.ldin.toNat

/-- L.DIN[63:0], zero-extended: the operand of LDU64 (R62, R73). -/
def State.latchedDin64 (s : State) : Nat := (s.ldin.extractLsb' 0 64).toNat

/-- The 32-bit unsigned immediate, zero-extended, "never sign-extended, scaled or shifted" (R61). -/
def immValue (imm : BitVec 32) : Nat := imm.toNat

end Sys2Proof.Machine
end

