-- ==== Sys2Proof/Machine/Flags.lean ====
section
/-! DEFINITION. The result indicators RESULT and STATUS.ABSENT, the words of STATUS and CTRL, and the IRQ level. -/

namespace Sys2Proof.Machine
open Sys2Proof Sys2Proof.Config

/-! ## RESULT (R27) -/

/-- +1, 0 and -1 in 64-bit two's complement (R27). -/
def resultPlusOne : Word := 0x0000000000000001#64
/-- See `resultPlusOne`. -/
def resultZero : Word := 0x0000000000000000#64
/-- See `resultPlusOne`. -/
def resultMinusOne : Word := 0xFFFFFFFFFFFFFFFF#64

/-- The RESULT of LEG from l = Exp(x, LEGEXP) (R99). -/
def legendreResult (l : Nat) : Word :=
  if l = 0 then resultZero else if l = ONE then resultPlusOne else resultMinusOne

/-- The RESULT of CMP from two regular values (R111). -/
def compareResult (a b : Nat) : Word :=
  if a < b then resultMinusOne else if a = b then resultZero else resultPlusOne

/-! ## STATUS, CTRL and IRQ (R24, R26, R119) -/

/-- ERRCODE as STATUS[11:8] shows it (R115). -/
def ErrCode.bits : ErrCode → BitVec 4
  | .noError => 0#4
  | .illegal => 1#4
  | .badRange => 2#4
  | .noncanonical => 3#4
  | .busy => 4#4

/-- One bit of a register. -/
def bit (b : Bool) : BitVec 1 := BitVec.ofBool b

/-- The STATUS word: ERRCODE 11:8, ABSENT 3, ERR 2, DONE 1, BUSY 0; bits 63:12 and 7:4 read 0 (R24). -/
def State.statusWord (s : State) : Word :=
  0#52 ++ s.errCode.bits ++ 0#4 ++ bit s.absent ++ bit s.err ++ bit s.done ++ bit s.busy

/-- The CTRL word: IE in bit 0; bits 63:1 read 0 (R26). -/
def State.ctrlWord (s : State) : Word := 0#63 ++ bit s.ie

/-- The interrupt output: IRQ = CTRL.IE and (STATUS.DONE or STATUS.ERR), a level (R34, R119). -/
def State.irq (s : State) : Bool := s.ie && (s.done || s.err)

/-- A host write of w to STATUS: bit 1 clears DONE, bit 2 clears ERR and ERRCODE, all other bits are ignored (R24). -/
def State.writeStatus (s : State) (w : Word) : State :=
  { s with
    done := s.done && !w.getLsbD 1
    err := s.err && !w.getLsbD 2
    errCode := if w.getLsbD 2 then .noError else s.errCode }

/-- A host write of w to CTRL: bit 0 is IE, the rest is ignored (R26). -/
def State.writeCtrl (s : State) (w : Word) : State := { s with ie := w.getLsbD 0 }

/-- RESULT <- w, by LEG and CMP alone (R27). -/
def State.setResult (s : State) (w : Word) : State := { s with result := w }

/-- STATUS.ABSENT <- b, by SQRT alone (R31). -/
def State.setAbsent (s : State) (b : Bool) : State := { s with absent := b }

/-- DOUT <- n, all four limbs at once, by ST and STR alone (R29). -/
def State.setDout (s : State) (n : Nat) : State := { s with dout := limbsOfElem (elemOf n) }

end Sys2Proof.Machine
end

