-- ==== Sys2Proof/Machine/Ops.lean ====
section
/-! DEFINITION. What the commands share (recording an error, refusing a word, issue, completion), the register window, the
host's accesses, the reset input, and whose turn it is. -/

namespace Sys2Proof.Machine
open Sys2Proof Sys2Proof.Config

/-! ## Errors, issue and completion (spec/60_exceptions.md) -/

/-- record_error(code): ERRCODE keeps the first error since ERR was last 0 (R112, R115). -/
def State.recordError (s : State) (code : ErrCode) : State :=
  { s with errCode := if s.err then s.errCode else code, err := true }

/-- refuse(code): the error is recorded and DONE is set; BUSY stays 0 (R112). -/
def State.refuse (s : State) (code : ErrCode) : State := { s.recordError code with done := true }

/-- An accepted word is latched with DIN, DONE is cleared and BUSY is set (R35, R112). -/
def State.latch (s : State) (w : Word) : State :=
  { s with lcmd := w, ldin := limbsValue s.din, done := false, busy := true }

/-- LD is the one command whose DIN is checked at issue (R71, R112). -/
def loadsRaw : Instr → Bool
  | .ld _ => true
  | .nop | .ldr _ | .ldu64 _ | .st _ | .str _ | .zero _ | .one _ | .mov _ _
  | .add _ _ _ | .dbl _ _ | .sub _ _ _ | .neg _ _ | .halve _ _
  | .mul _ _ _ | .sqr _ _ | .tomont _ _ | .frommont _ _ | .mulc _ _ _
  | .exp _ _ | .leg _ | .inv _ _ | .div _ _ _ | .binv _ _ _ | .sqrt _ _ | .cmp _ _ => false

/-- The issue of the word w, the host's write to CMD: BUSY, ILLEGAL, BAD_RANGE and NONCANONICAL are tested in this order,
and a word that passes them all is accepted (R112, R118). -/
def State.issue (s : State) (w : Word) : State :=
  if s.busy then s.recordError .busy
  else
    match decode w with
    | .error _ => s.refuse .illegal
    | .ok i =>
      if !WellFormed i then s.refuse .badRange
      else if loadsRaw i && decide ((limbsValue s.din).toNat ≥ q) then s.refuse .noncanonical
      else s.latch w

/-- The end of every completion: BUSY <- 0 and DONE <- 1 (R114). -/
def State.complete (s : State) : State := { s with busy := false, done := true }

/-- The outcome of a completion that leaves the state `s` before BUSY and DONE are set (R114). -/
def completed (s : State) : Host.Outcome State Fault Refusal := .next s.complete

/-- The outcome of a completion whose primitive may not end: completed where it ends, stuck under a name where it does not
(log 11). -/
def completedOr (stuck : Fault) : Option State → Host.Outcome State Fault Refusal
  | some s => completed s
  | none => .fault stuck

/-! ## The register window (R22, R40) -/

/-- The registers of the window (R22). -/
inductive WindowReg where
  | cmd | status | ctrl | result
  | din (k : Fin 4) | dout (k : Fin 4) | modulus (k : Fin 4)
  deriving DecidableEq, Repr

/-- The register at a window offset; none at an unmapped one (R22, R40). -/
def windowReg (off : BitVec 8) : Option WindowReg :=
  match off.toNat with
  | 0x00 => some .cmd
  | 0x08 => some .status
  | 0x10 => some .ctrl
  | 0x18 => some .result
  | 0x20 => some (.din 0)
  | 0x28 => some (.din 1)
  | 0x30 => some (.din 2)
  | 0x38 => some (.din 3)
  | 0x40 => some (.dout 0)
  | 0x48 => some (.dout 1)
  | 0x50 => some (.dout 2)
  | 0x58 => some (.dout 3)
  | 0x80 => some (.modulus 0)
  | 0x88 => some (.modulus 1)
  | 0x90 => some (.modulus 2)
  | 0x98 => some (.modulus 3)
  | _ => none

/-- Limb k of four registers (R45). -/
def limbAt (l : Limbs) : Fin 4 → Word
  | 0 => l.l0
  | 1 => l.l1
  | 2 => l.l2
  | 3 => l.l3

/-- Limb k of four registers, replaced (R28). -/
def setLimbAt (l : Limbs) (k : Fin 4) (v : Word) : Limbs :=
  match k with
  | 0 => { l with l0 := v }
  | 1 => { l with l1 := v }
  | 2 => { l with l2 := v }
  | 3 => { l with l3 := v }

/-- What a read of a register of the window returns: CMD reads 0 (R23), Q0-Q3 the limbs of q (R30). -/
def State.readReg (s : State) : WindowReg → Word
  | .cmd => 0#64
  | .status => s.statusWord
  | .ctrl => s.ctrlWord
  | .result => s.result
  | .din k => limbAt s.din k
  | .dout k => limbAt s.dout k
  | .modulus k => limbAt (limbsOfElem (elemOf q)) k

/-- What a write to a register of the window does; writes to RESULT, DOUT0-DOUT3 and Q0-Q3 are ignored (R22, R40). -/
def State.writeReg (s : State) (w : Word) : WindowReg → State
  | .cmd => s.issue w
  | .status => s.writeStatus w
  | .ctrl => s.writeCtrl w
  | .result => s
  | .din k => { s with din := setLimbAt s.din k w }
  | .dout _ => s
  | .modulus _ => s

/-- A read at a window offset; an unmapped one returns 0 (R40). -/
def State.readWindow (s : State) (off : BitVec 8) : Word :=
  match windowReg off with
  | some r => s.readReg r
  | none => 0#64

/-- A write at a window offset; at an unmapped one it is ignored (R40). -/
def State.writeWindow (s : State) (off : BitVec 8) (w : Word) : State :=
  match windowReg off with
  | some r => s.writeReg w r
  | none => s

/-- The host address of a window offset: MMIO_BASE + o (R38). -/
def hostAddress (off : BitVec 8) : Nat := mmioBase + off.toNat

/-- The window offset of a host address, for the addresses that reach the window (R38). -/
def windowOffset (a : Nat) : Option (BitVec 8) :=
  if mmioBase ≤ a ∧ a < mmioBase + 256 then some (BitVec.ofNat 8 (a - mmioBase)) else none

/-- The accesses this spec defines: 8 bytes at an offset that is a multiple of 8 (R41). -/
def accessDefined (width : Nat) (off : BitVec 8) : Bool := decide (width = 8) && decide (off.toNat % 8 = 0)

/-! ## Host accesses, reset, and whose turn it is -/

/-- A host read: the value goes to the host and the block is unchanged (R43, R44); undefined accesses are refused (R42). -/
def hostRead (s : State) (width : Nat) (off : BitVec 8) : Host.Outcome State Fault Refusal :=
  if accessDefined width off then .next { s with reads := s.readWindow off :: s.reads }
  else .refused (.undefinedHostAccess width off)

/-- A host write (R43, R44); undefined accesses are refused (R42). -/
def hostWrite (s : State) (width : Nat) (off : BitVec 8) (w : Word) : Host.Outcome State Fault Refusal :=
  if accessDefined width off then .next (s.writeWindow off w)
  else .refused (.undefinedHostAccess width off)

/-- The reset input: every item of state takes its value of R124 at once, a command in flight is abandoned (R123). The ROM
keeps its contents, and what the outside world still sends or has read is not the block's (log 4, 15). -/
def resetBlock (s : State) : State :=
  { State.reset with sqrtG := s.sqrtG, agenda := s.agenda, reads := s.reads }

/-- Whose step comes next (R16, R49, R114; log 1, 2). A host access, a reset or a WAIT that finds BUSY = 0 is carried out
here. The engine moves where the agenda says so, at the latest at a WAIT or when nothing is left to arrive; with BUSY = 0 it
has no step (R122). -/
def turn (s : State) : Turn :=
  match s.agenda with
  | [] => if s.busy then .engine s else .settled (.next s)
  | .read width off :: rest => .settled (hostRead { s with agenda := rest } width off)
  | .write width off w :: rest => .settled (hostWrite { s with agenda := rest } width off w)
  | .wait :: rest => if s.busy then .engine s else .settled (.next { s with agenda := rest })
  | .engine :: rest =>
    if s.busy then .engine { s with agenda := rest } else .settled (.next { s with agenda := rest })
  | .reset :: rest => .settled (.next (resetBlock { s with agenda := rest }))

/-- The command in flight, as the engine reads it from L.CMD (R35, R114). -/
def latchedCommand (s : State) : Except DecodeReject Instr := decode s.lcmd

end Sys2Proof.Machine
end

