-- ==== Sys2Proof/Machine/Primitives.lean ====
section
/-! DEFINITION. The named primitives of R12, pure functions of their arguments and the ROM: the reduction core, the modular
adder and subtractor, the CIOS multiplier, exponentiation, the binary-GCD inverse, batch inversion and Tonelli-Shanks. Every
value is a natural number (R9), of any size (DESIGN CHOICE, log 17). -/

namespace Sys2Proof.Machine
open Sys2Proof.Config

/-! ## The reduction core and the modular adder and subtractor (spec/41_reduction_add_sub.md) -/

/-- CondSub(z), for 0 ≤ z < 2q (R79). -/
def condSub (z : Nat) : Nat := if z ≥ q then z - q else z

/-- ModAdd(x, y) (R81). -/
def modAdd (x y : Nat) : Nat := condSub (x + y)

/-- ModSub(x, y): the integer difference, with q added once if a final borrow occurs (R83). -/
def modSub (x y : Nat) : Nat := if x < y then x + q - y else x - y

/-- ModNeg(x) (R84). -/
def modNeg (x : Nat) : Nat := if x = 0 then 0 else q - x

/-- ModHalve(x): q is added first if the low bit is 1, then one logical right shift (R85). -/
def modHalve (x : Nat) : Nat := (if x % 2 = 1 then x + q else x) >>> 1

/-! ## The Montgomery multiplier (spec/42_montgomery_mul.md) -/

/-- The four limbs of a value, least-significant first (R9). -/
def limbsOf (x : Nat) : List Nat := [x % W, x / W % W, x / (W * W) % W, x / (W * W * W) % W]

/-- A chain of lines `(C, S) <- e + C` with C starting at `c`: the digits S and the last carry C (R86). -/
def carryChain : Nat → List Nat → List Nat × Nat
  | c, [] => ([], c)
  | c, e :: es => ((e + c) % W :: (carryChain ((e + c) / W) es).1, (carryChain ((e + c) / W) es).2)

/-- The accumulator of the CIOS loop between two rounds: T[0..3] and T[4] (R86). -/
structure CiosAcc where
  low : List Nat
  top : Nat
  deriving DecidableEq, Repr

/-- One round of the outer loop: multiply-accumulate limb `xi` of x, then fold m·q and shift the window (R86). -/
def ciosRound (ys : List Nat) (acc : CiosAcc) (xi : Nat) : CiosAcc :=
  let row := carryChain 0 (List.zipWith (fun t y => t + xi * y) acc.low ys)
  let t4 := (acc.top + row.2) % W
  let t5 := (acc.top + row.2) / W
  let m := row.1.headD 0 * QINV % W
  let fold := carryChain 0 (List.zipWith (fun t k => t + m * k) row.1 qLimbs)
  { low := fold.1.tail ++ [(t4 + fold.2) % W]
    top := t5 + (t4 + fold.2) / W }

/-- The value of a list of digits in base 2^64, least-significant first (R9). -/
def digitsValue : List Nat → Nat
  | [] => 0
  | d :: ds => d + W * digitsValue ds

/-- The CIOS loop over the four limbs of x, and the five-limb value it returns (R86). `cios` is its value by R87. -/
def ciosLoop (x y : Nat) : Nat :=
  let acc := (limbsOf x).foldl (ciosRound (limbsOf y)) ⟨[0, 0, 0, 0], 0⟩
  digitsValue (acc.low ++ [acc.top])

/-- M = (-x·y·q^-1) mod R, whose four 64-bit digits are the reduction multipliers m of the loop (R87). -/
def ciosMultiplier (x y : Nat) : Nat := (R - x * y * qInvR % R) % R

/-- CIOS(x, y) = (x·y + M·q) / R, an exact division (R87): "a model may use rule R87 instead of the loop" (R86; log 7). -/
def cios (x y : Nat) : Nat := (x * y + ciosMultiplier x y * q) / R

/-- MontMul(x, y) = CondSub(CIOS(x, y)) (R89). -/
def montMul (x y : Nat) : Nat := condSub (cios x y)

/-- ToMont(x) = MontMul(x, RSQ) (R90). -/
def toMont (x : Nat) : Nat := montMul x RSQ

/-- FromMont(x) = MontMul(x, 1), 1 the plain integer (R90). -/
def fromMont (x : Nat) : Nat := montMul x 1

/-! ## Exponentiation (spec/43_exponentiation.md) -/

/-- The square-and-multiply loop on z over bits i-1 down to 0 of e (R96). -/
def expLoop (x e z : Nat) : Nat → Nat
  | 0 => z
  | i + 1 => expLoop x e (if e.testBit i then montMul (montMul z z) x else montMul z z) i

/-- Exp(x, e): bitlen(e) is Nat.log2 e + 1, so the loop runs over the bits bitlen(e)-2 down to 0 (R96). -/
def modExp (x e : Nat) : Nat := if e = 0 then ONE else expLoop x e x (Nat.log2 e)

/-! ## The binary-GCD inverse and batch inversion (spec/44_inversion.md) -/

/-- `while v[0] = 0`: halve v, and its cofactor modulo q (R100). A 256-bit value other than 0 is odd after at most 255
halvings, so 256 rounds carry out every such loop that ends. -/
def stripTwos (v s : Nat) : Nat → Nat × Nat
  | 0 => (v, s)
  | n + 1 => if v % 2 = 0 then stripTwos (v >>> 1) (modHalve s) n else (v, s)

/-- The values u, v and their cofactors r, s in the loop of Inverse (R100). -/
structure GcdState where
  u : Nat
  v : Nat
  r : Nat
  s : Nat
  deriving DecidableEq, Repr

/-- One pass of the loop of Inverse, up to its end tests (R100; log 22). -/
def gcdPass (g : GcdState) : GcdState :=
  let vs := stripTwos g.v g.s 256
  let ur := stripTwos g.u g.r 256
  if vs.1 ≥ ur.1 then ⟨ur.1, vs.1 - ur.1, ur.2, modSub vs.2 ur.2⟩
  else ⟨ur.1 - vs.1, vs.1, modSub ur.2 vs.2, vs.2⟩

/-- The loop of Inverse: passes until u = 1 or v = 1; none when the given number of passes does not reach either (R100). -/
def gcdLoop (g : GcdState) : Nat → Option Nat
  | 0 => none
  | n + 1 =>
    if (gcdPass g).u = 1 then some (gcdPass g).r
    else if (gcdPass g).v = 1 then some (gcdPass g).s
    else gcdLoop (gcdPass g) n

/-- Inverse(x) (R100). "Inverse ends after at most 507 passes" for x below q (R102), and by the same argument after at most
510 for any 256-bit x it ends on, so 512 passes give none exactly where it does not end. -/
def inverse (x : Nat) : Option Nat := if x = 0 then some 0 else gcdLoop ⟨q, x, 0, RSQ⟩ 512

/-- The forward walk of BatchInvert: each non-zero element with the running product before it, and the whole product (R106).
The prefix of a zero element is never used. -/
def prefixProducts : Nat → List Nat → List Nat × Nat
  | acc, [] => ([], acc)
  | acc, a :: as =>
    let acc' := if a = 0 then acc else montMul acc a
    (acc :: (prefixProducts acc' as).1, (prefixProducts acc' as).2)

/-- The backward walk of BatchInvert, from the last element down: the results, and the shared inverse that is left (R106). -/
def unwindInverses (shared : Nat) : List (Nat × Nat) → List Nat × Nat
  | [] => ([], shared)
  | (a, pre) :: rest =>
    let tail := unwindInverses shared rest
    if a = 0 then (0 :: tail.1, tail.2) else (montMul pre tail.2 :: tail.1, montMul tail.2 a)

/-- BatchInvert of a list of stored values, with one Inverse for all (R106). -/
def batchInverse (as : List Nat) : Option (List Nat) :=
  (inverse (prefixProducts ONE as).2).map fun shared => (unwindInverses shared (as.zip (prefixProducts ONE as).1)).1

/-! ## Tonelli-Shanks (spec/45_sqrt.md) -/

/-- What SqrtTS answers: a stored value or the marker ABSENT (R107); `stuck` where a loop does not end, which no operand
below q with a legal SQRT_G reaches (R108). -/
inductive SqrtAnswer where
  | root (y : Nat)
  | absent
  | stuck
  deriving DecidableEq, Repr

/-- `repeat n times: c <- MontMul(c, c)` (R107). -/
def squareTimes (c : Nat) : Nat → Nat
  | 0 => c
  | n + 1 => squareTimes (montMul c c) n

/-- `while c != ONE: c <- MontMul(c, c)`, counting from m: the number of squarings, looked for among `n` of them (R107). -/
def squaringsToOne (c m : Nat) : Nat → Option Nat
  | 0 => none
  | n + 1 => if c = ONE then some m else squaringsToOne (montMul c c) (m + 1) n

/-- The loop of SqrtTS on g, r, y, b; "always m < r" (R107). -/
def sqrtLoop (g r y b : Nat) : Nat → SqrtAnswer
  | 0 => .stuck
  | n + 1 =>
    (squaringsToOne b 0 r).elim .stuck fun m =>
      if m = 0 then .root y
      else
        let c := squareTimes g (r - m - 1)
        sqrtLoop (montMul c c) m (montMul y c) (montMul b (montMul c c)) n

/-- SqrtTS(x) with the ROM constant SQRT_G = `g` (R107); "the loop ends after at most S = 22 passes" (R108). -/
def sqrtTS (g x : Nat) : SqrtAnswer :=
  let w := modExp x SQRTEXP
  let y := montMul x w
  let b := montMul w y
  let c := squareTimes b (S - 1)
  if c = 0 then .root 0 else if c = ONE then sqrtLoop g S y b S else .absent

end Sys2Proof.Machine
end

