-- ==== Sys2Proof/Machine/AddSub.lean ====
section
/-! DEFINITION. Completion of the modular addition and subtraction commands (spec/41_reduction_add_sub.md). -/

namespace Sys2Proof.Machine
open Sys2Proof

/-- ADD: F[RD] <- CondSub(F[RS1] + F[RS2]) (R81). -/
def execAdd (rd rs1 rs2 : Reg) (s : State) : Host.Outcome State Fault Refusal :=
  completed (s.setReg rd (modAdd (s.reg rs1) (s.reg rs2)))

/-- DBL: F[RD] <- CondSub(x + x) (R82). -/
def execDbl (rd rs1 : Reg) (s : State) : Host.Outcome State Fault Refusal :=
  completed (s.setReg rd (modAdd (s.reg rs1) (s.reg rs1)))

/-- SUB: F[RD] <- ModSub(F[RS1], F[RS2]) (R83). -/
def execSub (rd rs1 rs2 : Reg) (s : State) : Host.Outcome State Fault Refusal :=
  completed (s.setReg rd (modSub (s.reg rs1) (s.reg rs2)))

/-- NEG: F[RD] <- ModNeg(F[RS1]) (R84). -/
def execNeg (rd rs1 : Reg) (s : State) : Host.Outcome State Fault Refusal :=
  completed (s.setReg rd (modNeg (s.reg rs1)))

/-- HALVE: F[RD] <- ModHalve(F[RS1]) (R85). -/
def execHalve (rd rs1 : Reg) (s : State) : Host.Outcome State Fault Refusal :=
  completed (s.setReg rd (modHalve (s.reg rs1)))

end Sys2Proof.Machine
end

