-- ==== Sys2Proof/Machine/Compare.lean ====
section
/-! DEFINITION. Completion of CMP (spec/46_compare.md). -/

namespace Sys2Proof.Machine
open Sys2Proof

/-- CMP: RESULT <- the order of the regular values of F[RS1] and F[RS2] (R111). -/
def execCmp (rs1 rs2 : Reg) (s : State) : Host.Outcome State Fault Refusal :=
  completed (s.setResult (compareResult (fromMont (s.reg rs1)) (fromMont (s.reg rs2))))

end Sys2Proof.Machine
end

