-- ==== Sys2Proof/Machine/DataMovement.lean ====
section
/-! DEFINITION. Completion of the data movement commands (spec/40_data_movement.md). -/

namespace Sys2Proof.Machine
open Sys2Proof Sys2Proof.Config

/-- NOP: "no effect at completion beyond" R114 (R70). -/
def execNop (s : State) : Host.Outcome State Fault Refusal := completed s

/-- LD: F[RD] <- L.DIN, as is; its check stands at issue (R71). -/
def execLd (rd : Reg) (s : State) : Host.Outcome State Fault Refusal := completed (s.setReg rd s.latchedDin)

/-- LDR: F[RD] <- MontMul(L.DIN, RSQ) (R72). -/
def execLdr (rd : Reg) (s : State) : Host.Outcome State Fault Refusal :=
  completed (s.setReg rd (montMul s.latchedDin RSQ))

/-- LDU64: F[RD] <- MontMul(zext_256(L.DIN[63:0]), RSQ) (R73). -/
def execLdu64 (rd : Reg) (s : State) : Host.Outcome State Fault Refusal :=
  completed (s.setReg rd (montMul s.latchedDin64 RSQ))

/-- ST: DOUT <- F[RS1] (R74). -/
def execSt (rs1 : Reg) (s : State) : Host.Outcome State Fault Refusal := completed (s.setDout (s.reg rs1))

/-- STR: DOUT <- FromMont(F[RS1]) (R75). -/
def execStr (rs1 : Reg) (s : State) : Host.Outcome State Fault Refusal :=
  completed (s.setDout (fromMont (s.reg rs1)))

/-- ZERO: F[RD] <- 0 (R76). -/
def execZero (rd : Reg) (s : State) : Host.Outcome State Fault Refusal := completed (s.setReg rd 0)

/-- ONE: F[RD] <- ONE (R77). -/
def execOne (rd : Reg) (s : State) : Host.Outcome State Fault Refusal := completed (s.setReg rd ONE)

/-- MOV: F[RD] <- F[RS1] (R78). -/
def execMov (rd rs1 : Reg) (s : State) : Host.Outcome State Fault Refusal := completed (s.setReg rd (s.reg rs1))

end Sys2Proof.Machine
end

