-- ==== Sys2Proof/Machine/Exponentiation.lean ====
section
/-! DEFINITION. Completion of EXP and LEG (spec/43_exponentiation.md). -/

namespace Sys2Proof.Machine
open Sys2Proof Sys2Proof.Config

/-- EXP: F[RD] <- Exp(F[RS1], L.DIN) (R97, R98). -/
def execExp (rd rs1 : Reg) (s : State) : Host.Outcome State Fault Refusal :=
  completed (s.setReg rd (modExp (s.reg rs1) s.latchedDin))

/-- LEG: RESULT <- the Legendre symbol of F[RS1] (R99). -/
def execLeg (rs1 : Reg) (s : State) : Host.Outcome State Fault Refusal :=
  completed (s.setResult (legendreResult (modExp (s.reg rs1) LEGEXP)))

end Sys2Proof.Machine
end

