-- ==== Sys2Proof/Machine/Inversion.lean ====
section
/-! DEFINITION. Completion of INV, DIV and BINV (spec/44_inversion.md). -/

namespace Sys2Proof.Machine
open Sys2Proof

/-- INV: F[RD] <- Inverse(F[RS1]) (R103); stuck where Inverse does not end (R102; log 11). -/
def execInv (rd rs1 : Reg) (s : State) : Host.Outcome State Fault Refusal :=
  completedOr .inverseDoesNotEnd ((inverse (s.reg rs1)).map fun v => s.setReg rd v)

/-- DIV: F[RD] <- MontMul(F[RS1], Inverse(F[RS2])) (R104); stuck where Inverse does not end (R102; log 11). -/
def execDiv (rd rs1 rs2 : Reg) (s : State) : Host.Outcome State Fault Refusal :=
  completedOr .inverseDoesNotEnd ((inverse (s.reg rs2)).map fun v => s.setReg rd (montMul (s.reg rs1) v))

/-- BINV: F[RD + i] <- BatchInvert(F[RS1 .. RS1+n-1])[i]; every source is read before any destination is written (R106). A
range that passes F[15] is refused at issue (R105) and so never latched (log 10). -/
def execBinv (rd rs1 : Reg) (n : BitVec 32) (s : State) : Host.Outcome State Fault Refusal :=
  if binvRangesFit rd rs1 n then
    completedOr .inverseDoesNotEnd ((batchInverse (s.regRange rs1 (immValue n))).map fun vs => s.setRange rd vs)
  else .fault .latchedRangeTooLong

end Sys2Proof.Machine
end

