-- ==== Sys2Proof/Machine/MontgomeryMul.lean ====
section
/-! DEFINITION. Completion of the Montgomery multiplier's commands (spec/42_montgomery_mul.md). -/

namespace Sys2Proof.Machine
open Sys2Proof

/-- MUL: F[RD] <- MontMul(F[RS1], F[RS2]) (R91). -/
def execMul (rd rs1 rs2 : Reg) (s : State) : Host.Outcome State Fault Refusal :=
  completed (s.setReg rd (montMul (s.reg rs1) (s.reg rs2)))

/-- SQR: F[RD] <- MontMul(x, x) (R92). -/
def execSqr (rd rs1 : Reg) (s : State) : Host.Outcome State Fault Refusal :=
  completed (s.setReg rd (montMul (s.reg rs1) (s.reg rs1)))

/-- TOMONT: F[RD] <- ToMont(F[RS1]) (R93). -/
def execTomont (rd rs1 : Reg) (s : State) : Host.Outcome State Fault Refusal :=
  completed (s.setReg rd (toMont (s.reg rs1)))

/-- FROMMONT: F[RD] <- FromMont(F[RS1]) (R94). -/
def execFrommont (rd rs1 : Reg) (s : State) : Host.Outcome State Fault Refusal :=
  completed (s.setReg rd (fromMont (s.reg rs1)))

/-- MULC: F[RD] <- MontMul(F[RS1], ToMont(zext_256(c))) (R95). -/
def execMulc (rd rs1 : Reg) (c : BitVec 32) (s : State) : Host.Outcome State Fault Refusal :=
  completed (s.setReg rd (montMul (s.reg rs1) (toMont (immValue c))))

end Sys2Proof.Machine
end

