-- ==== Sys2Proof/Machine/SquareRoot.lean ====
section
/-! DEFINITION. Completion of SQRT (spec/45_sqrt.md). -/

namespace Sys2Proof.Machine
open Sys2Proof

/-- What SQRT does with the answer of SqrtTS (R110); stuck where SqrtTS does not end (R108; log 12). -/
def sqrtOutcome (rd : Reg) (s : State) : SqrtAnswer → Host.Outcome State Fault Refusal
  | .root y => completed ((s.setReg rd y).setAbsent false)
  | .absent => completed (s.setAbsent true)
  | .stuck => .fault .squareRootDoesNotEnd

/-- SQRT: F[RD] <- SqrtTS(F[RS1]) with ABSENT <- 0, or ABSENT <- 1 with F[RD] not written (R110); which root it is depends on
the ROM constant SQRT_G alone (R109). -/
def execSqrt (rd rs1 : Reg) (s : State) : Host.Outcome State Fault Refusal :=
  sqrtOutcome rd s (sqrtTS s.sqrtG.toNat (s.reg rs1))

end Sys2Proof.Machine
end

