-- ==== Sys2Proof/Machine/Dispatch.lean ====
section
/-! DEFINITION. The completion of each command, one arm per constructor of Instr (R114). -/

namespace Sys2Proof.Machine
open Sys2Proof

def exec (i : Instr) (s : State) : Host.Outcome State Fault Refusal :=
  match i with
  | .nop => Sys2Proof.Machine.execNop s
  | .ld rd => Sys2Proof.Machine.execLd rd s
  | .ldr rd => Sys2Proof.Machine.execLdr rd s
  | .ldu64 rd => Sys2Proof.Machine.execLdu64 rd s
  | .st rs1 => Sys2Proof.Machine.execSt rs1 s
  | .str rs1 => Sys2Proof.Machine.execStr rs1 s
  | .zero rd => Sys2Proof.Machine.execZero rd s
  | .one rd => Sys2Proof.Machine.execOne rd s
  | .mov rd rs1 => Sys2Proof.Machine.execMov rd rs1 s
  | .add rd rs1 rs2 => Sys2Proof.Machine.execAdd rd rs1 rs2 s
  | .dbl rd rs1 => Sys2Proof.Machine.execDbl rd rs1 s
  | .sub rd rs1 rs2 => Sys2Proof.Machine.execSub rd rs1 rs2 s
  | .neg rd rs1 => Sys2Proof.Machine.execNeg rd rs1 s
  | .halve rd rs1 => Sys2Proof.Machine.execHalve rd rs1 s
  | .mul rd rs1 rs2 => Sys2Proof.Machine.execMul rd rs1 rs2 s
  | .sqr rd rs1 => Sys2Proof.Machine.execSqr rd rs1 s
  | .tomont rd rs1 => Sys2Proof.Machine.execTomont rd rs1 s
  | .frommont rd rs1 => Sys2Proof.Machine.execFrommont rd rs1 s
  | .mulc rd rs1 c => Sys2Proof.Machine.execMulc rd rs1 c s
  | .exp rd rs1 => Sys2Proof.Machine.execExp rd rs1 s
  | .leg rs1 => Sys2Proof.Machine.execLeg rs1 s
  | .inv rd rs1 => Sys2Proof.Machine.execInv rd rs1 s
  | .div rd rs1 rs2 => Sys2Proof.Machine.execDiv rd rs1 rs2 s
  | .binv rd rs1 n => Sys2Proof.Machine.execBinv rd rs1 n s
  | .sqrt rd rs1 => Sys2Proof.Machine.execSqrt rd rs1 s
  | .cmp rs1 rs2 => Sys2Proof.Machine.execCmp rs1 rs2 s

end Sys2Proof.Machine
end

