-- ==== Sys2Proof/Machine/Step.lean ====
section
/-! DEFINITION. One step of the block: the next arrival, or the completion of the command in flight. -/

namespace Sys2Proof.Machine
open Sys2Proof

/-- One step (R16): what arrives next takes effect, or the engine completes the command in L.CMD (R49, R50, R114). -/
def step (s : State) : Host.Outcome State Fault Refusal :=
  match turn s with
  | .settled o => o
  | .engine s' =>
    match latchedCommand s' with
    | .ok i => exec i s'
    | .error _ => .fault .latchedWordIsNoCommand

/-- `s` with the word latched as an accepted issue latches it (R35, R112) and the engine's completion next to come, so that
the very next step runs its command. The block fetches no instructions; this stands for the host's CMD write (log 16). -/
def State.withFetchWord (s : State) (nbits w : Nat) : State :=
  { s.latch (tableWord nbits w) with agenda := .engine :: s.agenda }

end Sys2Proof.Machine
end

