-- ==== Sys2Proof/Machine/HostNotation.lean ====
section
/-! DEFINITION. What the spec defines on the host's side of the window: the notation of host programs, the pseudo-commands,
the assembler, the byte lanes and the 32-byte encoding of an element. `step` uses none of it (DESIGN CHOICE, safe, log 20). -/

namespace Sys2Proof.Machine
open Sys2Proof

/-! ## Host-sequence notation (R68) and pseudo-commands (R69) -/

/-- The window offset of a register (R22). -/
def offsetOf : WindowReg → BitVec 8
  | .cmd => 0x00#8
  | .status => 0x08#8
  | .ctrl => 0x10#8
  | .result => 0x18#8
  | .din k => 0x20#8 + 8#8 * BitVec.ofNat 8 k.val
  | .dout k => 0x40#8 + 8#8 * BitVec.ofNat 8 k.val
  | .modulus k => 0x80#8 + 8#8 * BitVec.ofNat 8 k.val

/-- `W REG, v` (R68). -/
def hostW (r : WindowReg) (v : Word) : Arrival := .write 8 (offsetOf r) v

/-- `R REG` (R68). -/
def hostR (r : WindowReg) : Arrival := .read 8 (offsetOf r)

/-- `ISSUE <command>` (R68). -/
def hostIssue (i : Instr) : Arrival := hostW .cmd (encode i)

/-- The four DIN writes of a 256-bit value (R69). -/
def hostWriteDin (v : Elem) : List Arrival :=
  [hostW (.din 0) (limbsOfElem v).l0, hostW (.din 1) (limbsOfElem v).l1, hostW (.din 2) (limbsOfElem v).l2,
    hostW (.din 3) (limbsOfElem v).l3]

/-- `SETU64 fd, v` (R69). -/
def pseudoSetU64 (fd : Reg) (v : Word) : List Arrival := [hostW (.din 0) v, hostIssue (.ldu64 fd), .wait]

/-- `SET256 fd, v` (R69). -/
def pseudoSet256 (fd : Reg) (v : Elem) : List Arrival := hostWriteDin v ++ [hostIssue (.ldr fd), .wait]

/-- `LOADM fd, s` (R69). -/
def pseudoLoadM (fd : Reg) (v : Elem) : List Arrival := hostWriteDin v ++ [hostIssue (.ld fd), .wait]

/-- `EXPI fd, fs1, e` (R69). -/
def pseudoExpI (fd fs1 : Reg) (e : Elem) : List Arrival := hostWriteDin e ++ [hostIssue (.exp fd fs1), .wait]

/-- `EQ fs1, fs2`; the host tests the value it reads for 0 (R69). -/
def pseudoEq (fs1 fs2 : Reg) : List Arrival := [hostIssue (.cmp fs1 fs2), .wait, hostR .result]

/-- `ISZERO fs1`, with fk a register that holds 0 (R69). -/
def pseudoIsZero (fs1 fk : Reg) : List Arrival := pseudoEq fs1 fk

/-! ## Assembler text (R67) -/

/-- An element register is written f0 .. f15 (R17, R67). -/
def asmReg (r : Reg) : String := "f" ++ toString r.val

/-- An immediate is written # and a decimal number, one of the two forms of R67 (DESIGN CHOICE, log 20, 23). -/
def asmImm (n : BitVec 32) : String := "#" ++ toString n.toNat

/-- A command as assembler text: destination, sources, immediate (R64, R67), with one space after the mnemonic and after
each comma (DESIGN CHOICE, log 23). -/
def asmText : Instr → String
  | .nop => "NOP"
  | .ld rd => "LD " ++ asmReg rd
  | .ldr rd => "LDR " ++ asmReg rd
  | .ldu64 rd => "LDU64 " ++ asmReg rd
  | .st rs1 => "ST " ++ asmReg rs1
  | .str rs1 => "STR " ++ asmReg rs1
  | .zero rd => "ZERO " ++ asmReg rd
  | .one rd => "ONE " ++ asmReg rd
  | .mov rd rs1 => "MOV " ++ asmReg rd ++ ", " ++ asmReg rs1
  | .add rd rs1 rs2 => "ADD " ++ asmReg rd ++ ", " ++ asmReg rs1 ++ ", " ++ asmReg rs2
  | .dbl rd rs1 => "DBL " ++ asmReg rd ++ ", " ++ asmReg rs1
  | .sub rd rs1 rs2 => "SUB " ++ asmReg rd ++ ", " ++ asmReg rs1 ++ ", " ++ asmReg rs2
  | .neg rd rs1 => "NEG " ++ asmReg rd ++ ", " ++ asmReg rs1
  | .halve rd rs1 => "HALVE " ++ asmReg rd ++ ", " ++ asmReg rs1
  | .mul rd rs1 rs2 => "MUL " ++ asmReg rd ++ ", " ++ asmReg rs1 ++ ", " ++ asmReg rs2
  | .sqr rd rs1 => "SQR " ++ asmReg rd ++ ", " ++ asmReg rs1
  | .tomont rd rs1 => "TOMONT " ++ asmReg rd ++ ", " ++ asmReg rs1
  | .frommont rd rs1 => "FROMMONT " ++ asmReg rd ++ ", " ++ asmReg rs1
  | .mulc rd rs1 c => "MULC " ++ asmReg rd ++ ", " ++ asmReg rs1 ++ ", " ++ asmImm c
  | .exp rd rs1 => "EXP " ++ asmReg rd ++ ", " ++ asmReg rs1
  | .leg rs1 => "LEG " ++ asmReg rs1
  | .inv rd rs1 => "INV " ++ asmReg rd ++ ", " ++ asmReg rs1
  | .div rd rs1 rs2 => "DIV " ++ asmReg rd ++ ", " ++ asmReg rs1 ++ ", " ++ asmReg rs2
  | .binv rd rs1 n => "BINV " ++ asmReg rd ++ ", " ++ asmReg rs1 ++ ", " ++ asmImm n
  | .sqrt rd rs1 => "SQRT " ++ asmReg rd ++ ", " ++ asmReg rs1
  | .cmp rs1 rs2 => "CMP " ++ asmReg rs1 ++ ", " ++ asmReg rs2

/-! ### Reading assembler text (R67) -/

/-- The pieces of a text between separators; one more than there are separators. -/
def splitAt (sep : Char) : List Char → List (List Char)
  | [] => [[]]
  | c :: cs =>
    if c = sep then [] :: splitAt sep cs
    else
      match splitAt sep cs with
      | [] => [[c]]
      | w :: ws => (c :: w) :: ws

/-- A text without the spaces at its two ends. White space is the space character alone (DESIGN CHOICE, log 23). -/
def trimSpaces (cs : List Char) : List Char :=
  ((cs.dropWhile (· = ' ')).reverse.dropWhile (· = ' ')).reverse

/-- The value of a hexadecimal digit, in either case (DESIGN CHOICE, log 23); the first ten are the decimal digits. -/
def digitOf (c : Char) : Option Nat :=
  if '0' ≤ c ∧ c ≤ '9' then some (c.toNat - '0'.toNat)
  else if 'a' ≤ c ∧ c ≤ 'f' then some (c.toNat - 'a'.toNat + 10)
  else if 'A' ≤ c ∧ c ≤ 'F' then some (c.toNat - 'A'.toNat + 10)
  else none

/-- A number in base `base`, after the digits read so far; leading zeros are allowed (DESIGN CHOICE, log 23). -/
def readDigits (base acc : Nat) : List Char → Option Nat
  | [] => some acc
  | c :: cs =>
    match digitOf c with
    | some d => if d < base then readDigits base (acc * base + d) cs else none
    | none => none

/-- f0 .. f15 (R17, R67), with no leading zero and in lower case only (DESIGN CHOICE, log 23). -/
def readReg : List Char → Option Reg
  | ['f', c] => (readDigits 10 0 [c]).map (Fin.ofNat 16)
  | ['f', '1', c] => (readDigits 6 0 [c]).map fun d => Fin.ofNat 16 (10 + d)
  | _ => none

/-- `#` and a decimal or `0x` hexadecimal number below 2^32 (R67), in the digits that `readDigits` allows (log 23). -/
def readImm (cs : List Char) : Option (BitVec 32) :=
  let number :=
    match cs with
    | '#' :: '0' :: 'x' :: c :: ds => readDigits 16 0 (c :: ds)
    | '#' :: c :: ds => readDigits 10 0 (c :: ds)
    | _ => none
  match number with
  | some n => if n < 2 ^ 32 then some (BitVec.ofNat 32 n) else none
  | none => none

/-- A command with one register operand. -/
def readOne (f : Reg → Instr) : List (List Char) → Option Instr
  | [a] => (readReg a).map f
  | _ => none

/-- A command with two register operands. -/
def readTwo (f : Reg → Reg → Instr) : List (List Char) → Option Instr
  | [a, b] => (readReg a).bind fun x => (readReg b).map (f x)
  | _ => none

/-- A command with three register operands. -/
def readThree (f : Reg → Reg → Reg → Instr) : List (List Char) → Option Instr
  | [a, b, c] => (readReg a).bind fun x => (readReg b).bind fun y => (readReg c).map (f x y)
  | _ => none

/-- A command with two register operands and an immediate. -/
def readTwoImm (f : Reg → Reg → BitVec 32 → Instr) : List (List Char) → Option Instr
  | [a, b, c] => (readReg a).bind fun x => (readReg b).bind fun y => (readImm c).map (f x y)
  | _ => none

/-- The mnemonics, in capitals only (DESIGN CHOICE, log 23), and their operands (R64, column "syntax"). -/
def readCommand (mnemonic : String) (operands : List (List Char)) : Option Instr :=
  match mnemonic with
  | "NOP" => if operands = [] then some .nop else none
  | "LD" => readOne .ld operands
  | "LDR" => readOne .ldr operands
  | "LDU64" => readOne .ldu64 operands
  | "ST" => readOne .st operands
  | "STR" => readOne .str operands
  | "ZERO" => readOne .zero operands
  | "ONE" => readOne .one operands
  | "MOV" => readTwo .mov operands
  | "ADD" => readThree .add operands
  | "DBL" => readTwo .dbl operands
  | "SUB" => readThree .sub operands
  | "NEG" => readTwo .neg operands
  | "HALVE" => readTwo .halve operands
  | "MUL" => readThree .mul operands
  | "SQR" => readTwo .sqr operands
  | "TOMONT" => readTwo .tomont operands
  | "FROMMONT" => readTwo .frommont operands
  | "MULC" => readTwoImm .mulc operands
  | "EXP" => readTwo .exp operands
  | "LEG" => readOne .leg operands
  | "INV" => readTwo .inv operands
  | "DIV" => readThree .div operands
  | "BINV" => readTwoImm .binv operands
  | "SQRT" => readTwo .sqrt operands
  | "CMP" => readTwo .cmp operands
  | _ => none

/-- One line of assembler text as a command: `MNEMONIC operands`, the operands separated by commas (R67).
R67 does not speak of white space: any number of spaces may stand at the ends and around operands, and nothing else may
(DESIGN CHOICE, unsafe for a claim about text and safe for the machine, log 23). -/
def readAsm (line : String) : Option Instr :=
  let cs := trimSpaces line.toList
  let rest := trimSpaces (cs.dropWhile (· ≠ ' '))
  readCommand (String.ofList (cs.takeWhile (· ≠ ' '))) (if rest = [] then [] else (splitAt ',' rest).map trimSpaces)

/-- The assembler: the command word of a line, unused fields 0 (R67). -/
def assemble (line : String) : Option Word := (readAsm line).map encode

/-! ## Byte lanes (R46) and the 32-byte encoding (R47) -/

/-- Byte j of a 64-bit register is bits 8j+7:8j: little-endian lanes, not switchable (R46). -/
def byteLane (v : Word) (j : Fin 8) : BitVec 8 := v.extractLsb' (8 * j.val) 8

/-- The host address of byte j of the register at a window offset: MMIO_BASE + o + j (R46). -/
def byteAddress (off : BitVec 8) (j : Fin 8) : Nat := hostAddress off + j.val

/-- The external encoding the host builds from DOUT: byte j is bits [255-8j : 248-8j], most significant first (R47). -/
def encodeBytes (v : Elem) : List (BitVec 8) := (List.range 32).map (fun j => v.extractLsb' (248 - 8 * j) 8)

/-- "Decoding is the reverse into DIN followed by LDR": the DIN value of 32 big-endian bytes (R47). -/
def decodeBytes (bytes : List (BitVec 8)) : Elem :=
  bytes.foldl (fun acc b => acc <<< 8 ||| b.setWidth 256) 0#256

end Sys2Proof.Machine
end

