-- ==== Sys2Proof/Safety.lean ====
section
/-! DEFINITION. What counts as a legal state and a settled run, in the terms the statements use. -/

namespace Sys2Proof.Machine
open Sys2Proof Sys2Proof.Config

/-- The OPC values of the opcode map (R64); every other value is illegal (R65). -/
def opcodeMap : List (BitVec 8) :=
  [0x00#8, 0x01#8, 0x02#8, 0x03#8, 0x04#8, 0x05#8, 0x06#8, 0x07#8, 0x08#8, 0x10#8, 0x11#8, 0x12#8, 0x13#8, 0x14#8,
    0x18#8, 0x19#8, 0x1A#8, 0x1B#8, 0x1C#8, 0x20#8, 0x21#8, 0x28#8, 0x29#8, 0x2A#8, 0x30#8, 0x38#8]

/-- The offsets of the window's registers (R22); every other offset is unmapped (R40). -/
def mappedOffsets : List (BitVec 8) :=
  [0x00#8, 0x08#8, 0x10#8, 0x18#8, 0x20#8, 0x28#8, 0x30#8, 0x38#8, 0x40#8, 0x48#8, 0x50#8, 0x58#8,
    0x80#8, 0x88#8, 0x90#8, 0x98#8]

/-- The indices of the element registers a command may write (R64, column "uses"; R105). -/
def destinations : Instr → List Nat
  | .nop | .st _ | .str _ | .leg _ | .cmp _ _ => []
  | .ld rd | .ldr rd | .ldu64 rd | .zero rd | .one rd => [rd.val]
  | .mov rd _ | .add rd _ _ | .dbl rd _ | .sub rd _ _ | .neg rd _ | .halve rd _ | .mul rd _ _ | .sqr rd _
  | .tomont rd _ | .frommont rd _ | .mulc rd _ _ | .exp rd _ | .inv rd _ | .div rd _ _ | .sqrt rd _ => [rd.val]
  | .binv rd _ n => (List.range n.toNat).map (rd.val + ·)

/-- v is a square modulo q. -/
def IsSquareModQ (v : Nat) : Prop := ∃ r : Nat, r * r % q = v % q

/-- "every element register holds a value below q" (R20). -/
def Canonical (s : State) : Prop := ∀ r : Reg, s.reg r < q

/-- BUSY = 1 implies DONE = 0, and ERR = 0 implies ERRCODE = 0 (R25). -/
def StatusLegal (s : State) : Prop :=
  (s.busy = true → s.done = false) ∧ (s.err = false → s.errCode = .noError)

/-- While BUSY = 1 the latch holds a word that an issue accepts (R112). -/
def LatchLegal (s : State) : Prop :=
  s.busy = true → ∃ i, decode s.lcmd = .ok i ∧ WellFormed i = true ∧ (loadsRaw i = true → s.ldin.toNat < q)

/-- RESULT holds +1, 0 or -1 (R27). -/
def ResultLegal (s : State) : Prop := s.result = resultZero ∨ s.result = resultPlusOne ∨ s.result = resultMinusOne

/-- DOUT holds a value below q (R74, R75). -/
def DoutCanonical (s : State) : Prop := (limbsValue s.dout).toNat < q

/-- SQRT_G is a stored value of multiplicative order exactly 2^22: its 2^21-th power is Mont(-1) = q - ONE (R32, R108). -/
def SqrtGLegal (s : State) : Prop :=
  s.sqrtG.toNat < q ∧ squareTimes s.sqrtG.toNat (S - 1) = q - ONE

/-- The legal states: what holds at reset and after every step. -/
structure Legal (s : State) : Prop where
  canonical : Canonical s
  status : StatusLegal s
  latch : LatchLegal s
  result : ResultLegal s
  dout : DoutCanonical s
  sqrtG : SqrtGLegal s

/-- Every host access still to come is one the spec defines (R41, R42). -/
def agendaDefined (l : List Arrival) : Bool :=
  l.all fun a =>
    match a with
    | .read width off => accessDefined width off
    | .write width off _ => accessDefined width off
    | .wait | .engine | .reset => true

/-- The end of a run: nothing is left to arrive and no command is in flight (R131). -/
def Settled (s : State) : Prop := s.agenda = [] ∧ s.busy = false

/-- What a completion answers, with the next state changed by `g`. -/
def mapNext (g : State → State) : Host.Outcome State Fault Refusal → Host.Outcome State Fault Refusal
  | .next s => .next (g s)
  | .fault r => .fault r
  | .refused r => .refused r

/-- The next arrival is a host access (R16). -/
def hostAccessNext (s : State) : Bool :=
  match s.agenda with
  | .read _ _ :: _ | .write _ _ _ :: _ => true
  | .wait :: _ | .engine :: _ | .reset :: _ | [] => false

end Sys2Proof.Machine
end

