-- ==== Sys2Proof/Certificates/Slice0/Obligations.lean ====
section
/-! DEFINITION. The statements for the provers, from the spec's numbered rules. -/

open Sys2Proof Sys2Proof.Machine Sys2Proof.Config

/-! ## Encoding (spec/30_encoding.md) -/

/-- Decode of encode is the command itself, for every command and every value of its operands (R59, R64). -/
def Obligations.EncodedCommandDecodesBack : Prop :=
  ∀ i : Instr, decode (encode i) = .ok i

/-- A word that decodes is the word of its command, but for the bits the command does not use (R59, R63). -/
def Obligations.DecodedWordReencodesToItsUsedBits : Prop :=
  ∀ (w : Word) (i : Instr), decode w = .ok i → encode i = w &&& usedMask i

/-- R63: fields a command does not use are ignored; RSV never is. -/
def Obligations.UnusedFieldsAreIgnored : Prop :=
  (∀ (w w' : Word) (i : Instr), decode w = .ok i → w' &&& usedMask i = w &&& usedMask i →
    w'.extractLsb' 20 12 = 0#12 → decode w' = .ok i) ∧
  (∀ w : Word, w.extractLsb' 20 12 ≠ 0#12 → decode w = .error .reservedFieldSet)

/-- R59: where the fields stand, and the word they make. -/
def Obligations.CommandWordIsItsFieldsShiftedTogether : Prop :=
  (∀ w : Word, (fieldsOf w).opc = w.extractLsb' 0 8 ∧ (fieldsOf w).rd = w.extractLsb' 8 4 ∧
    (fieldsOf w).rs1 = w.extractLsb' 12 4 ∧ (fieldsOf w).rs2 = w.extractLsb' 16 4 ∧
    (fieldsOf w).rsv = w.extractLsb' 20 12 ∧ (fieldsOf w).imm = w.extractLsb' 32 32 ∧ wordOf (fieldsOf w) = w) ∧
  (∀ (opc : BitVec 8) (rd rs1 rs2 : BitVec 4) (imm : BitVec 32),
    fieldsOf (opc.setWidth 64 ||| rd.setWidth 64 <<< 8 ||| rs1.setWidth 64 <<< 12 ||| rs2.setWidth 64 <<< 16
      ||| imm.setWidth 64 <<< 32) = ⟨opc, rd, rs1, rs2, 0#12, imm⟩)

/-- R64, row by row: a word with w[31:20] = 0 is the command of the row whose OPC is w[7:0], with the fields of the column
"uses"; and the words that match a row under the mask 0x00000000FFF000FF are the words that decode. -/
def Obligations.OpcodeMapSelectsTheCommand : Prop :=
  (∀ (w : Word) (rd rs1 rs2 : Reg) (imm : BitVec 32), w.extractLsb' 20 12 = 0#12 →
    rd.val = (w.extractLsb' 8 4).toNat → rs1.val = (w.extractLsb' 12 4).toNat → rs2.val = (w.extractLsb' 16 4).toNat →
    imm = w.extractLsb' 32 32 →
    (w.extractLsb' 0 8 = 0x00#8 → decode w = .ok .nop) ∧
    (w.extractLsb' 0 8 = 0x01#8 → decode w = .ok (.ld rd)) ∧
    (w.extractLsb' 0 8 = 0x02#8 → decode w = .ok (.ldr rd)) ∧
    (w.extractLsb' 0 8 = 0x03#8 → decode w = .ok (.ldu64 rd)) ∧
    (w.extractLsb' 0 8 = 0x04#8 → decode w = .ok (.st rs1)) ∧
    (w.extractLsb' 0 8 = 0x05#8 → decode w = .ok (.str rs1)) ∧
    (w.extractLsb' 0 8 = 0x06#8 → decode w = .ok (.zero rd)) ∧
    (w.extractLsb' 0 8 = 0x07#8 → decode w = .ok (.one rd)) ∧
    (w.extractLsb' 0 8 = 0x08#8 → decode w = .ok (.mov rd rs1)) ∧
    (w.extractLsb' 0 8 = 0x10#8 → decode w = .ok (.add rd rs1 rs2)) ∧
    (w.extractLsb' 0 8 = 0x11#8 → decode w = .ok (.dbl rd rs1)) ∧
    (w.extractLsb' 0 8 = 0x12#8 → decode w = .ok (.sub rd rs1 rs2)) ∧
    (w.extractLsb' 0 8 = 0x13#8 → decode w = .ok (.neg rd rs1)) ∧
    (w.extractLsb' 0 8 = 0x14#8 → decode w = .ok (.halve rd rs1)) ∧
    (w.extractLsb' 0 8 = 0x18#8 → decode w = .ok (.mul rd rs1 rs2)) ∧
    (w.extractLsb' 0 8 = 0x19#8 → decode w = .ok (.sqr rd rs1)) ∧
    (w.extractLsb' 0 8 = 0x1A#8 → decode w = .ok (.tomont rd rs1)) ∧
    (w.extractLsb' 0 8 = 0x1B#8 → decode w = .ok (.frommont rd rs1)) ∧
    (w.extractLsb' 0 8 = 0x1C#8 → decode w = .ok (.mulc rd rs1 imm)) ∧
    (w.extractLsb' 0 8 = 0x20#8 → decode w = .ok (.exp rd rs1)) ∧
    (w.extractLsb' 0 8 = 0x21#8 → decode w = .ok (.leg rs1)) ∧
    (w.extractLsb' 0 8 = 0x28#8 → decode w = .ok (.inv rd rs1)) ∧
    (w.extractLsb' 0 8 = 0x29#8 → decode w = .ok (.div rd rs1 rs2)) ∧
    (w.extractLsb' 0 8 = 0x2A#8 → decode w = .ok (.binv rd rs1 imm)) ∧
    (w.extractLsb' 0 8 = 0x30#8 → decode w = .ok (.sqrt rd rs1)) ∧
    (w.extractLsb' 0 8 = 0x38#8 → decode w = .ok (.cmp rs1 rs2))) ∧
  (∀ w : Word, (∃ i, decode w = .ok i) ↔ ∃ opc ∈ opcodeMap, w &&& 0x00000000FFF000FF#64 = opc.setWidth 64)

/-- A word is a command exactly when its OPC is in the opcode map and RSV is 0, and then it matches its row under the mask
0x00000000FFF000FF (R64, R65). -/
def Obligations.DecoderSelectsTheTableRow : Prop :=
  (∀ w : Word, (∃ i, decode w = .ok i) ↔ (w.extractLsb' 0 8 ∈ opcodeMap ∧ w.extractLsb' 20 12 = 0#12)) ∧
  (∀ (w : Word) (i : Instr), decode w = .ok i → w &&& 0x00000000FFF000FF#64 = (opcodeOf i).setWidth 64)

/-- Words written out from R59's fields, one per family, and three illegal ones (95_test_vectors.md 3.1). -/
def Obligations.SampleWordsDecode : Prop :=
  decode 0x0000000000000000#64 = .ok .nop ∧
  decode 0x000000000000FF01#64 = .ok (.ld 15) ∧
  decode 0x0000DEAD00021310#64 = .ok (.add 3 1 2) ∧
  decode 0x00000000000F1211#64 = .ok (.dbl 2 1) ∧
  decode 0x000000070000341C#64 = .ok (.mulc 4 3 7#32) ∧
  decode 0x0000000000001220#64 = .ok (.exp 2 1) ∧
  decode 0x000000030000152A#64 = .ok (.binv 5 1 3#32) ∧
  decode 0x0000000000001230#64 = .ok (.sqrt 2 1) ∧
  decode 0x0000000000098038#64 = .ok (.cmp 8 9) ∧
  decode 0x0000000000100000#64 = .error .reservedFieldSet ∧
  decode 0x0000000000000015#64 = .error .unknownOpcode ∧
  decode 0x00000000000000FF#64 = .error .unknownOpcode

/-! ## Issue, refusal and the host's accesses (spec/10, 20, 60) -/

/-- R112, on the bits of the word: BUSY, ILLEGAL, BAD_RANGE, NONCANONICAL in this order, else the word is latched. -/
def Obligations.IssueFollowsTheRuleOrder : Prop :=
  ∀ (s : State) (w : Word) (rest : List Arrival), s.agenda = .write 8 0x00#8 w :: rest →
    let code (c : ErrCode) : ErrCode := if s.err then s.errCode else c
    step s = .next (
      if s.busy then { s with agenda := rest, errCode := code .busy, err := true }
      else if w.extractLsb' 0 8 ∉ opcodeMap ∨ w.extractLsb' 20 12 ≠ 0#12 then
        { s with agenda := rest, errCode := code .illegal, err := true, done := true }
      else if w.extractLsb' 0 8 = 0x2A#8 ∧
          ((w.extractLsb' 32 32).toNat > 16 ∨
            (w.extractLsb' 12 4).toNat + (w.extractLsb' 32 32).toNat > 16 ∨
            (w.extractLsb' 8 4).toNat + (w.extractLsb' 32 32).toNat > 16) then
        { s with agenda := rest, errCode := code .badRange, err := true, done := true }
      else if w.extractLsb' 0 8 = 0x01#8 ∧ (s.din.l3 ++ s.din.l2 ++ s.din.l1 ++ s.din.l0).toNat ≥ q then
        { s with agenda := rest, errCode := code .noncanonical, err := true, done := true }
      else
        { s with
          agenda := rest, lcmd := w, ldin := s.din.l3 ++ s.din.l2 ++ s.din.l1 ++ s.din.l0, done := false, busy := true })

/-- While BUSY = 1, a host access leaves the command in flight, and every result of the previous ones, as they are; a CMD
write is dropped and recorded as an error with DONE unchanged (R113, R128). -/
def Obligations.NothingDisturbsTheCommandInFlight : Prop :=
  ∀ s t : State, s.busy = true → hostAccessNext s = true → step s = .next t →
    t.busy = true ∧ t.lcmd = s.lcmd ∧ t.ldin = s.ldin ∧ t.f = s.f ∧ t.dout = s.dout ∧ t.result = s.result ∧
    t.absent = s.absent ∧ t.sqrtG = s.sqrtG ∧
    (∀ w rest, s.agenda = .write 8 0x00#8 w :: rest →
      t = { s with agenda := rest, err := true, errCode := if s.err then s.errCode else .busy })

/-- DOUT, RESULT, ABSENT and the element registers change only at a completion: no host access and no WAIT that finds
BUSY = 0 changes them, in any state (R128). -/
def Obligations.ResultsChangeOnlyAtCompletion : Prop :=
  ∀ s t : State, step s = .next t → (hostAccessNext s = true ∨ s.busy = false) →
    (∀ rest, s.agenda ≠ .reset :: rest) →
    t.f = s.f ∧ t.dout = s.dout ∧ t.result = s.result ∧ t.absent = s.absent ∧ t.sqrtG = s.sqrtG

/-- The STATUS word and a write to it: DONE and ERR (with ERRCODE) are cleared by writing 1, every other bit is ignored
(R24), whatever BUSY is. ERRCODE shows the five codes by their numbers (R115). -/
def Obligations.StatusReadsItsFieldsAndClearsByOne : Prop :=
  ∀ s : State,
    (s.statusWord.getLsbD 0 = s.busy ∧ s.statusWord.getLsbD 1 = s.done ∧ s.statusWord.getLsbD 2 = s.err ∧
      s.statusWord.getLsbD 3 = s.absent ∧ s.statusWord.extractLsb' 8 4 = s.errCode.bits ∧
      s.statusWord.extractLsb' 4 4 = 0#4 ∧ s.statusWord.extractLsb' 12 52 = 0#52) ∧
    (ErrCode.noError.bits = 0#4 ∧ ErrCode.illegal.bits = 1#4 ∧ ErrCode.badRange.bits = 2#4 ∧
      ErrCode.noncanonical.bits = 3#4 ∧ ErrCode.busy.bits = 4#4) ∧
    (∀ w rest, s.agenda = .write 8 0x08#8 w :: rest →
      step s = .next { s with
        agenda := rest
        done := s.done && !w.getLsbD 1
        err := s.err && !w.getLsbD 2
        errCode := if w.getLsbD 2 then .noError else s.errCode })

/-- R26: CTRL holds IE in bit 0 and nothing else, is writable at any time, resets to 0 and gates the interrupt. -/
def Obligations.CtrlHoldsOnlyTheInterruptEnable : Prop :=
  (∀ (s : State) (w : Word) (rest : List Arrival), s.agenda = .write 8 0x10#8 w :: rest →
    step s = .next { s with agenda := rest, ie := w.getLsbD 0 }) ∧
  (∀ s : State, s.readWindow 0x10#8 = (if s.ie then 1#64 else 0#64)) ∧
  (∀ s : State, s.ie = false → s.irq = false) ∧ State.reset.ie = false

/-- R28: a DIN register reads back the last value written; a write changes that limb alone, and never a command already
issued. -/
def Obligations.DinReadsBackTheLastWrite : Prop :=
  (∀ (s : State) (k : Fin 4) (w : Word) (rest : List Arrival),
    s.agenda = .write 8 (0x20#8 + 8#8 * BitVec.ofNat 8 k.val) w :: rest →
    ∃ d : Limbs, step s = .next { s with agenda := rest, din := d } ∧
      ∀ j : Fin 4, ({ s with din := d } : State).readWindow (0x20#8 + 8#8 * BitVec.ofNat 8 j.val) =
        if j = k then w else s.readWindow (0x20#8 + 8#8 * BitVec.ofNat 8 j.val)) ∧
  (∀ s : State, limbsValue s.din = s.readWindow 0x38#8 ++ s.readWindow 0x30#8 ++ s.readWindow 0x28#8 ++
    s.readWindow 0x20#8) ∧
  limbsValue State.reset.din = 0#256

/-- R40: unmapped aligned offsets read 0 and ignore writes; read-only registers ignore writes; CMD reads 0. -/
def Obligations.UnmappedAndReadOnlyOffsets : Prop :=
  (∀ (s : State) (off : BitVec 8) (rest : List Arrival), off.toNat % 8 = 0 → off ∉ mappedOffsets →
    (s.agenda = .read 8 off :: rest → step s = .next { s with agenda := rest, reads := 0#64 :: s.reads }) ∧
    (∀ w, s.agenda = .write 8 off w :: rest → step s = .next { s with agenda := rest })) ∧
  (∀ (s : State) (off : BitVec 8) (w : Word) (rest : List Arrival),
    off ∈ [0x18#8, 0x40#8, 0x48#8, 0x50#8, 0x58#8, 0x80#8, 0x88#8, 0x90#8, 0x98#8] →
    s.agenda = .write 8 off w :: rest → step s = .next { s with agenda := rest }) ∧
  (∀ s : State, s.readWindow 0x00#8 = 0#64)

/-- What a read at each of the sixteen offsets of the register table returns (R22, R23, R24, R26, R27, R28, R29, R30), and
that a read changes nothing in the block (R44); that the value goes to the record of reads is the model's own (log 13). -/
def Obligations.WindowReadsReturnTheRegisters : Prop :=
  (∀ s : State,
    s.readWindow 0x00#8 = 0#64 ∧ s.readWindow 0x08#8 = s.statusWord ∧
    s.readWindow 0x10#8 = (if s.ie then 1#64 else 0#64) ∧ s.readWindow 0x18#8 = s.result ∧
    s.readWindow 0x20#8 = s.din.l0 ∧ s.readWindow 0x28#8 = s.din.l1 ∧
    s.readWindow 0x30#8 = s.din.l2 ∧ s.readWindow 0x38#8 = s.din.l3 ∧
    s.readWindow 0x40#8 = s.dout.l0 ∧ s.readWindow 0x48#8 = s.dout.l1 ∧
    s.readWindow 0x50#8 = s.dout.l2 ∧ s.readWindow 0x58#8 = s.dout.l3 ∧
    s.readWindow 0x80#8 = 0x19d0c5fd00c00001#64 ∧ s.readWindow 0x88#8 = 0xc8c480ece644e364#64 ∧
    s.readWindow 0x90#8 = 0x25fc7ec9cf927a98#64 ∧ s.readWindow 0x98#8 = 0x196deac24a9da12b#64) ∧
  (∀ (s : State) (off : BitVec 8) (rest : List Arrival), off.toNat % 8 = 0 → s.agenda = .read 8 off :: rest →
    step s = .next { s with agenda := rest, reads := s.readWindow off :: s.reads })

/-- R42: an access of another width or at an offset that is not a multiple of 8 is refused. -/
def Obligations.UndefinedAccessIsRefused : Prop :=
  ∀ (s : State) (width : Nat) (off : BitVec 8) (w : Word) (rest : List Arrival),
    width ≠ 8 ∨ off.toNat % 8 ≠ 0 →
    (s.agenda = .read width off :: rest → step s = .refused (.undefinedHostAccess width off)) ∧
    (s.agenda = .write width off w :: rest → step s = .refused (.undefinedHostAccess width off))

/-- R119: the level of IRQ, and what clears it. -/
def Obligations.InterruptIsTheLevelOfDoneOrErr : Prop :=
  (∀ s : State, s.irq = true ↔ s.ie = true ∧ (s.done = true ∨ s.err = true)) ∧
  (∀ (s : State) (w : Word), w.getLsbD 1 = true → w.getLsbD 2 = true → (s.writeStatus w).irq = false) ∧
  (∀ (s : State) (w : Word), w.getLsbD 0 = false → (s.writeCtrl w).irq = false) ∧
  (∀ (s : State) (w : Word), s.busy = false → (s.issue w).busy = true → (s.issue w).done = false) ∧
  State.reset.irq = false

/-- R38: the window's host addresses. -/
def Obligations.WindowIsAddressedFromMmioBase : Prop :=
  256 ∣ mmioBase ∧
  (∀ off : BitVec 8, hostAddress off = mmioBase + off.toNat ∧ windowOffset (hostAddress off) = some off) ∧
  (∀ a : Nat, (windowOffset a).isSome = true ↔ mmioBase ≤ a ∧ a < mmioBase + 256)

/-- R32: the ROM constants are what their definitions say. -/
def Obligations.RomConstantsMeetTheirDefinitions : Prop :=
  q = 11502027791375260645628074404575422495959608200132055716665986169834464870401 ∧
  RSQ = R * R % q ∧ (QINV * q + 1) % 2 ^ 64 = 0 ∧ QINV < 2 ^ 64 ∧ ONE = R % q ∧ LEGEXP = (q - 1) / 2 ∧
  S = 22 ∧ q - 1 = 2 ^ S * T ∧ T % 2 = 1 ∧ SQRTEXP = (T - 1) / 2 ∧
  sqrtGDefault.toNat = mont (7 ^ T) ∧ ¬ IsSquareModQ 7 ∧
  (∀ z : Nat, 0 < z → z < 7 → IsSquareModQ z) ∧
  montMul (squareTimes sqrtGDefault.toNat 21) (squareTimes sqrtGDefault.toNat 21) = ONE ∧
  squareTimes sqrtGDefault.toNat 21 ≠ ONE

/-! ## Reset (spec/70) -/

/-- R124: every item of state after reset, and what the window reads then. -/
def Obligations.ResetStateHasTheRuleValues : Prop :=
  (∀ r : Reg, State.reset.reg r = 0) ∧ State.reset.busy = false ∧ State.reset.done = false ∧ State.reset.err = false ∧
  State.reset.absent = false ∧ State.reset.errCode.bits = 0#4 ∧ State.reset.ie = false ∧ State.reset.lcmd = 0#64 ∧
  State.reset.ldin = 0#256 ∧ State.reset.irq = false ∧
  State.reset.sqrtG = 0x002e1c91cf663e7c80ec632543b1e463fc4fd5481e59084825207d1f93553fa6#256 ∧
  (∀ off ∈ [0x00#8, 0x08#8, 0x10#8, 0x18#8, 0x20#8, 0x28#8, 0x30#8, 0x38#8, 0x40#8, 0x48#8, 0x50#8, 0x58#8],
    State.reset.readWindow off = 0#64) ∧
  State.reset.readWindow 0x80#8 = 0x19d0c5fd00c00001#64 ∧ State.reset.readWindow 0x88#8 = 0xc8c480ece644e364#64 ∧
  State.reset.readWindow 0x90#8 = 0x25fc7ec9cf927a98#64 ∧ State.reset.readWindow 0x98#8 = 0x196deac24a9da12b#64

/-- R123: a reset takes effect at once, in any state; a command in flight is abandoned and leaves no trace. What the outside
world still sends or has read, and the constant ROM, are not the reset's (the model's choice, log 4 and 15). -/
def Obligations.ResetAbandonsTheCommandInFlight : Prop :=
  ∀ (s : State) (rest : List Arrival), s.agenda = .reset :: rest →
    step s = .next { State.reset with sqrtG := s.sqrtG, agenda := rest, reads := s.reads }

/-! ## The step -/

/-- R114: while BUSY = 1 the engine's step is the completion of the command in L.CMD: where the agenda says so, at a WAIT,
and when nothing is left to arrive (the places are the model's choice, log 1 and 2). -/
def Obligations.StepRunsTheLatchedCommand : Prop :=
  ∀ (s : State) (i : Instr), s.busy = true → decode s.lcmd = .ok i →
    (s.agenda = [] → step s = exec i s) ∧
    (∀ rest, s.agenda = .wait :: rest → step s = exec i s) ∧
    (∀ rest, s.agenda = .engine :: rest → step s = exec i { s with agenda := rest })

/-- The word placed by withFetchWord is the very next command to run (the model's convention, log 16). -/
def Obligations.PlacedWordRunsNext : Prop :=
  ∀ (s : State) (nbits w : Nat) (i : Instr), decodeTableWord nbits w = some i →
    step (s.withFetchWord nbits w) =
      exec i { s with
        lcmd := BitVec.ofNat 64 (w % 2 ^ nbits), ldin := limbsValue s.din, done := false, busy := true }

/-- With BUSY = 0 the engine has no step: the block does nothing until a CMD write (R122), and a WAIT is over (R68). -/
def Obligations.IdleEngineHasNoStep : Prop :=
  ∀ (s : State), s.busy = false →
    (s.agenda = [] → step s = .next s) ∧
    (∀ rest, s.agenda = .wait :: rest → step s = .next { s with agenda := rest }) ∧
    (∀ rest, s.agenda = .engine :: rest → step s = .next { s with agenda := rest })

/-! ## What each command does (spec/40 to 46) -/

/-- R70, R76, R77, R78: NOP, ZERO, ONE and MOV. -/
def Obligations.MoveAndConstantCommandsComplete : Prop :=
  ∀ (s : State) (rd rs1 : Reg),
    exec .nop s = .next { s with busy := false, done := true } ∧
    exec (.zero rd) s = .next { s with f := s.f.set rd.val 0#256, busy := false, done := true } ∧
    exec (.one rd) s = .next { s with
      f := s.f.set rd.val 0x01b4d46915d7b45084230c1de44736082852f6bf014f1e16fdd8441df87ffff6#256
      busy := false, done := true } ∧
    exec (.mov rd rs1) s = .next { s with f := s.f.set rd.val s.f[rs1.val], busy := false, done := true } ∧
    (encode .nop = 0#64 ∧ decode 0#64 = .ok .nop)

/-- R71: LD stores L.DIN as it is, and its word is refused at issue when DIN ≥ q. -/
def Obligations.LoadRawStoresCanonicalDin : Prop :=
  (∀ (s : State) (rd : Reg), exec (.ld rd) s = .next { s with f := s.f.set rd.val s.ldin, busy := false, done := true }) ∧
  (∀ (s : State) (rd : Reg), s.busy = false → (limbsValue s.din).toNat ≥ q →
    (s.issue (encode (.ld rd))).f = s.f ∧ (s.issue (encode (.ld rd))).busy = false ∧
    (s.issue (encode (.ld rd))).err = true ∧ (s.err = false → (s.issue (encode (.ld rd))).errCode = .noncanonical)) ∧
  (∀ (s : State) (rd : Reg), s.busy = false → (limbsValue s.din).toNat < q →
    s.issue (encode (.ld rd)) =
      { s with lcmd := encode (.ld rd), ldin := limbsValue s.din, done := false, busy := true })

/-- R72, R73: LDR stores the Montgomery form of L.DIN mod q for every 256-bit L.DIN, LDU64 that of L.DIN[63:0]. -/
def Obligations.LoadConvertsToMontgomeryForm : Prop :=
  ∀ (s : State) (rd : Reg),
    exec (.ldr rd) s = .next { s with
      f := s.f.set rd.val (BitVec.ofNat 256 (s.ldin.toNat % q * R % q)), busy := false, done := true } ∧
    exec (.ldu64 rd) s = .next { s with
      f := s.f.set rd.val (BitVec.ofNat 256 (s.ldin.toNat % 2 ^ 64 * R % q)), busy := false, done := true }

/-- R74: ST writes the four limbs of the stored value to DOUT, all at once. -/
def Obligations.StoreRawWritesDout : Prop :=
  ∀ (s : State) (rs1 : Reg),
    ∃ d : Limbs, exec (.st rs1) s = .next { s with dout := d, busy := false, done := true } ∧
      d.l0 = s.f[rs1.val].extractLsb' 0 64 ∧ d.l1 = s.f[rs1.val].extractLsb' 64 64 ∧
      d.l2 = s.f[rs1.val].extractLsb' 128 64 ∧ d.l3 = s.f[rs1.val].extractLsb' 192 64 ∧
      (s.reg rs1 < q → (limbsValue d).toNat < q)

/-- R75: STR writes the regular value F[RS1]·R^-1 mod q to DOUT; 0 gives 0 and ONE gives 1. -/
def Obligations.StoreRegularWritesTheRegularValue : Prop :=
  (∀ (s : State) (rs1 : Reg), s.reg rs1 < q →
    ∃ d : Limbs, exec (.str rs1) s = .next { s with dout := d, busy := false, done := true } ∧
      (limbsValue d).toNat = s.reg rs1 * rInv % q) ∧
  R * rInv % q = 1 ∧ ONE * rInv % q = 1

/-- R81, R82: ADD is addition modulo q and DBL is ADD of a register to itself; the same law holds for the represented
values. -/
def Obligations.AddAndDoubleAreModular : Prop :=
  (∀ (s : State) (rd rs1 rs2 : Reg), s.reg rs1 < q → s.reg rs2 < q →
    exec (.add rd rs1 rs2) s = .next { s with
      f := s.f.set rd.val (BitVec.ofNat 256 ((s.reg rs1 + s.reg rs2) % q)), busy := false, done := true }) ∧
  (∀ (s : State) (rd rs1 : Reg), s.reg rs1 < q →
    exec (.dbl rd rs1) s = .next { s with
      f := s.f.set rd.val (BitVec.ofNat 256 (2 * s.reg rs1 % q)), busy := false, done := true }) ∧
  (∀ a b : Nat, modAdd (mont a) (mont b) = mont (a + b))

/-- R83, R84: SUB is subtraction modulo q, and NEG maps 0 to 0 and x to q - x. -/
def Obligations.SubtractAndNegateAreModular : Prop :=
  (∀ (s : State) (rd rs1 rs2 : Reg), s.reg rs1 < q → s.reg rs2 < q →
    exec (.sub rd rs1 rs2) s = .next { s with
      f := s.f.set rd.val (BitVec.ofNat 256 ((s.reg rs1 + q - s.reg rs2) % q)), busy := false, done := true }) ∧
  (∀ (s : State) (rd rs1 : Reg), s.reg rs1 < q →
    exec (.neg rd rs1) s = .next { s with
      f := s.f.set rd.val (BitVec.ofNat 256 (if s.reg rs1 = 0 then 0 else q - s.reg rs1)), busy := false, done := true })

/-- R85: HALVE stores the value below q whose double is F[RS1] modulo q. -/
def Obligations.HalveHalvesModuloQ : Prop :=
  (∀ (s : State) (rd rs1 : Reg), s.reg rs1 < q →
    ∃ h : Nat, h < q ∧ 2 * h % q = s.reg rs1 ∧
      exec (.halve rd rs1) s = .next { s with
        f := s.f.set rd.val (BitVec.ofNat 256 h), busy := false, done := true }) ∧
  (∀ a : Nat, modHalve (mont (2 * a)) = mont a)

/-- R91, R92: MUL is x·y·R^-1 mod q, Mont(a·b) for Montgomery forms, and ONE is its identity; SQR is MUL of a register by
itself. -/
def Obligations.MultiplyIsMontgomeryMultiplication : Prop :=
  (∀ (s : State) (rd rs1 rs2 : Reg), s.reg rs1 < q → s.reg rs2 < q →
    exec (.mul rd rs1 rs2) s = .next { s with
      f := s.f.set rd.val (BitVec.ofNat 256 (s.reg rs1 * s.reg rs2 * rInv % q)), busy := false, done := true }) ∧
  (∀ (s : State) (rd rs1 : Reg), s.reg rs1 < q →
    exec (.sqr rd rs1) s = .next { s with
      f := s.f.set rd.val (BitVec.ofNat 256 (s.reg rs1 * s.reg rs1 * rInv % q)), busy := false, done := true }) ∧
  (∀ a b : Nat, montMul (mont a) (mont b) = mont (a * b)) ∧
  (∀ x : Nat, x < q → montMul x ONE = x) ∧ R * rInv % q = 1

/-- R93, R94: TOMONT is x·R mod q and FROMMONT is x·R^-1 mod q; they undo each other (R90). -/
def Obligations.ConversionsMultiplyByTheRadix : Prop :=
  (∀ (s : State) (rd rs1 : Reg), s.reg rs1 < q →
    exec (.tomont rd rs1) s = .next { s with
      f := s.f.set rd.val (BitVec.ofNat 256 (s.reg rs1 * R % q)), busy := false, done := true }) ∧
  (∀ (s : State) (rd rs1 : Reg), s.reg rs1 < q →
    exec (.frommont rd rs1) s = .next { s with
      f := s.f.set rd.val (BitVec.ofNat 256 (s.reg rs1 * rInv % q)), busy := false, done := true }) ∧
  (∀ x : Nat, x < R → fromMont (toMont x) = x % q) ∧
  (∀ x : Nat, x < q → toMont (fromMont x) = x)

/-- R95: MULC is x·c mod q for the zero-extended 32-bit constant c. -/
def Obligations.MultiplyByConstantIsModular : Prop :=
  (∀ (s : State) (rd rs1 : Reg) (c : BitVec 32), s.reg rs1 < q →
    exec (.mulc rd rs1 c) s = .next { s with
      f := s.f.set rd.val (BitVec.ofNat 256 (s.reg rs1 * c.toNat % q)), busy := false, done := true }) ∧
  (∀ (a : Nat) (c : BitVec 32), mont a * c.toNat % q = mont (a * c.toNat))

/-- The CIOS loop returns R87's value, whose division is exact, which is below R + q, and below 2q when x·y < q·R (R86, R87,
R88). -/
def Obligations.CiosLoopReturnsTheExactQuotient : Prop :=
  ∀ x y : Nat, x < R → y < R →
    ciosLoop x y = cios x y ∧ cios x y * R = x * y + ciosMultiplier x y * q ∧
    ciosMultiplier x y < R ∧ cios x y < R + q ∧
    (x * y < q * R → cios x y < 2 * q)

/-- R96, R98: EXP stores x^e·R^(1-e) mod q for the 256-bit exponent e in L.DIN, ONE for e = 0, which is Mont(a^e) for
x = Mont(a). -/
def Obligations.ExponentiationRaisesToTheLatchedPower : Prop :=
  (∀ (s : State) (rd rs1 : Reg), s.reg rs1 < q →
    exec (.exp rd rs1) s = .next { s with
      f := s.f.set rd.val (BitVec.ofNat 256
        (if s.ldin.toNat = 0 then ONE else s.reg rs1 ^ s.ldin.toNat * rInv ^ (s.ldin.toNat - 1) % q))
      busy := false, done := true }) ∧
  (∀ a e : Nat, modExp (mont a) e = mont (a ^ e))

/-- R99: LEG writes 0 for 0, +1 for a non-zero square modulo q and -1 for a non-square, and no element register. -/
def Obligations.LegendreSymbolOfTheStoredValue : Prop :=
  ∀ (s : State) (rs1 : Reg), s.reg rs1 < q →
    ∃ w : Word, exec (.leg rs1) s = .next { s with result := w, busy := false, done := true } ∧
      (s.reg rs1 = 0 → w = 0x0000000000000000#64) ∧
      (s.reg rs1 ≠ 0 → IsSquareModQ (s.reg rs1) → w = 0x0000000000000001#64) ∧
      (s.reg rs1 ≠ 0 → ¬ IsSquareModQ (s.reg rs1) → w = 0xFFFFFFFFFFFFFFFF#64)

/-- R100, R101, R103: INV stores 0 for 0, and for any other x below q the value v below q with v·x ≡ R^2 modulo q, which is
Mont(a^-1) for x = Mont(a): MUL of it with x is ONE. -/
def Obligations.InverseIsTheMontgomeryInverse : Prop :=
  ∀ (s : State) (rd rs1 : Reg), s.reg rs1 < q →
    ∃ v : Nat, v < q ∧
      exec (.inv rd rs1) s = .next { s with
        f := s.f.set rd.val (BitVec.ofNat 256 v), busy := false, done := true } ∧
      (s.reg rs1 = 0 → v = 0) ∧
      (s.reg rs1 ≠ 0 → v * s.reg rs1 % q = R * R % q ∧ montMul v (s.reg rs1) = ONE)

/-- R102: for 0 < x < q, Inverse ends after at most 507 passes. -/
def Obligations.InverseEndsWithinItsPassBound : Prop :=
  ∀ x : Nat, 0 < x → x < q → ∃ v, gcdLoop ⟨q, x, 0, RSQ⟩ 507 = some v ∧ inverse x = some v

/-- Inverse is stuck exactly on a non-zero multiple of q, which no element register holds in a legal state (R102; the named
stop is the model's choice, log 11). -/
def Obligations.InverseIsStuckExactlyOnMultiplesOfQ : Prop :=
  ∀ (s : State) (rd rs1 : Reg),
    exec (.inv rd rs1) s = .fault .inverseDoesNotEnd ↔ (s.reg rs1 ≠ 0 ∧ q ∣ s.reg rs1)

/-- R104: DIV stores 0 for a zero divisor, and otherwise the value v below q with v·y ≡ x·R modulo q, which is Mont(a/b) for
Montgomery forms. -/
def Obligations.DivideMultipliesByTheInverse : Prop :=
  ∀ (s : State) (rd rs1 rs2 : Reg), s.reg rs1 < q → s.reg rs2 < q →
    ∃ v : Nat, v < q ∧
      exec (.div rd rs1 rs2) s = .next { s with
        f := s.f.set rd.val (BitVec.ofNat 256 v), busy := false, done := true } ∧
      (s.reg rs2 = 0 → v = 0) ∧
      (s.reg rs2 ≠ 0 → v * s.reg rs2 % q = s.reg rs1 * R % q)

/-- R106: BINV stores in F[RD + i] the Inverse of the F[RS1 + i] read before any write, for every i below n, whatever the
overlap, and changes no other register; n = 0 changes none. -/
def Obligations.BatchInverseIsElementwise : Prop :=
  ∀ (s : State) (rd rs1 : Reg) (n : BitVec 32),
    n.toNat ≤ 16 → rs1.val + n.toNat ≤ 16 → rd.val + n.toNat ≤ 16 →
    (∀ j : Reg, rs1.val ≤ j.val → j.val < rs1.val + n.toNat → s.reg j < q) →
    ∃ f : Vector Elem 16,
      exec (.binv rd rs1 n) s = .next { s with f := f, busy := false, done := true } ∧
      (∀ (i : Nat) (src dst : Reg), i < n.toNat → src.val = rs1.val + i → dst.val = rd.val + i →
        inverse (s.reg src) = some f[dst.val].toNat) ∧
      (∀ j : Reg, (j.val < rd.val ∨ rd.val + n.toNat ≤ j.val) → f[j.val] = s.f[j.val])

/-- R105: the word of BINV is refused as BAD_RANGE when n > 16, RS1 + n > 16 or RD + n > 16, with no effect but on STATUS,
and accepted otherwise; n = 0 is legal and completes with no change to any element register. -/
def Obligations.BatchRangesAreCheckedAtIssue : Prop :=
  (∀ (s : State) (rd rs1 : Reg), exec (.binv rd rs1 0#32) s = .next { s with busy := false, done := true }) ∧
  ∀ (s : State) (rd rs1 : Reg) (n : BitVec 32), s.busy = false →
    (n.toNat > 16 ∨ rs1.val + n.toNat > 16 ∨ rd.val + n.toNat > 16 →
      s.issue (encode (.binv rd rs1 n)) =
        { s with err := true, errCode := if s.err then s.errCode else .badRange, done := true }) ∧
    (¬ (n.toNat > 16 ∨ rs1.val + n.toNat > 16 ∨ rd.val + n.toNat > 16) →
      s.issue (encode (.binv rd rs1 n)) =
        { s with lcmd := encode (.binv rd rs1 n), ldin := limbsValue s.din, done := false, busy := true })

/-- A completion of a BINV whose ranges pass F[15], and one that finds in L.CMD a word that is no command (OPC outside the
map, or RSV not 0), stops under a name of its own, wherever the engine moves: no accepted issue latches either (the stops
are the model's choice, log 9 and 10; the places of the completion are too, log 1 and 2). A latched LD with L.DIN ≥ q does
not stop: its completion is that of R71. -/
def Obligations.LatchOfNoCommandOrLongRangeStopsByName : Prop :=
  (∀ (s : State) (rd rs1 : Reg) (n : BitVec 32),
    n.toNat > 16 ∨ rs1.val + n.toNat > 16 ∨ rd.val + n.toNat > 16 →
    exec (.binv rd rs1 n) s = .fault .latchedRangeTooLong) ∧
  (∀ s : State, s.busy = true → (s.lcmd.extractLsb' 0 8 ∉ opcodeMap ∨ s.lcmd.extractLsb' 20 12 ≠ 0#12) →
    (s.agenda = [] ∨ s.agenda.head? = some .wait ∨ s.agenda.head? = some .engine) →
    step s = .fault .latchedWordIsNoCommand)

/-- R107, R108, R110: SQRT of 0 is 0; of a non-zero square it is a root, with ABSENT = 0; of a non-square it sets ABSENT = 1
and writes no element register, whatever the legal SQRT_G is. -/
def Obligations.SquareRootOrAbsent : Prop :=
  ∀ (s : State) (rd rs1 : Reg), s.reg rs1 < q → SqrtGLegal s →
    (IsSquareModQ (s.reg rs1) →
      ∃ y : Nat, y < q ∧ montMul y y = s.reg rs1 ∧ (s.reg rs1 = 0 → y = 0) ∧
        exec (.sqrt rd rs1) s = .next { s with
          f := s.f.set rd.val (BitVec.ofNat 256 y), absent := false, busy := false, done := true }) ∧
    (¬ IsSquareModQ (s.reg rs1) →
      exec (.sqrt rd rs1) s = .next { s with absent := true, busy := false, done := true })

/-- The legal values of SQRT_G are exactly the Montgomery forms of z^T for the quadratic non-residues z (R32), so the
premise of the statements about SQRT admits every build the spec admits. -/
def Obligations.LegalSqrtGIsANonResidueRaisedToT : Prop :=
  ∀ s : State, SqrtGLegal s ↔ ∃ z : Nat, ¬ IsSquareModQ z ∧ s.sqrtG.toNat = mont (z ^ T)

/-- LEG and SQRT agree (90_conflicts.md C1): for a non-zero operand, RESULT = +1 exactly when SQRT leaves ABSENT = 0. -/
def Obligations.LegendreAgreesWithSquareRoot : Prop :=
  ∀ (s t u : State) (rd rs1 : Reg), s.reg rs1 < q → s.reg rs1 ≠ 0 → SqrtGLegal s →
    exec (.leg rs1) s = .next t → exec (.sqrt rd rs1) s = .next u →
    (t.result = 0x0000000000000001#64 ↔ u.absent = false)

/-- R111: CMP writes the order of the regular values; RESULT is 0 exactly when the two registers are equal. -/
def Obligations.CompareOrdersRegularValues : Prop :=
  ∀ (s : State) (rs1 rs2 : Reg), s.reg rs1 < q → s.reg rs2 < q →
    ∃ w : Word, exec (.cmp rs1 rs2) s = .next { s with result := w, busy := false, done := true } ∧
      (s.reg rs1 * rInv % q < s.reg rs2 * rInv % q → w = 0xFFFFFFFFFFFFFFFF#64) ∧
      (s.reg rs1 * rInv % q = s.reg rs2 * rInv % q → w = 0x0000000000000000#64) ∧
      (s.reg rs2 * rInv % q < s.reg rs1 * rInv % q → w = 0x0000000000000001#64) ∧
      (w = 0x0000000000000000#64 ↔ s.reg rs1 = s.reg rs2)

/-! ## Rules about the whole machine -/

/-- Which commands write the result indicators and DOUT, and what no command writes (R27, R29, R31, R114). -/
def Obligations.OnlyNamedCommandsWriteIndicators : Prop :=
  ∀ (i : Instr) (s t : State), exec i s = .next t →
    ((∀ rs1, i ≠ .leg rs1) → (∀ rs1 rs2, i ≠ .cmp rs1 rs2) → t.result = s.result) ∧
    ((∀ rs1, i ≠ .st rs1) → (∀ rs1, i ≠ .str rs1) → t.dout = s.dout) ∧
    ((∀ rd rs1, i ≠ .sqrt rd rs1) → t.absent = s.absent) ∧
    t.err = s.err ∧ t.errCode = s.errCode ∧ t.ie = s.ie ∧ t.din = s.din ∧ t.lcmd = s.lcmd ∧ t.ldin = s.ldin ∧
    t.sqrtG = s.sqrtG ∧ t.agenda = s.agenda ∧ t.reads = s.reads ∧ t.busy = false ∧ t.done = true

/-- The frame of the register file: a completion changes no element register but the command's destinations (R18). -/
def Obligations.OnlyDestinationRegistersChange : Prop :=
  ∀ (i : Instr) (s t : State), exec i s = .next t → ∀ r : Reg, r.val ∉ destinations i → t.f[r.val] = s.f[r.val]

/-- R36: what a command does to the element registers, DOUT, RESULT and ABSENT is a function of the command, L.DIN, the
element registers and the ROM alone; two states that agree on these give the same results. -/
def Obligations.ResultIsAFunctionOfLatchRegistersAndRom : Prop :=
  ∀ (i : Instr) (s s' t : State), s.f = s'.f → s.ldin = s'.ldin → s.sqrtG = s'.sqrtG → exec i s = .next t →
    ∃ t', exec i s' = .next t' ∧ t'.f = t.f ∧
      ((t.dout = s.dout ∧ t'.dout = s'.dout) ∨ t'.dout = t.dout) ∧
      ((t.result = s.result ∧ t'.result = s'.result) ∨ t'.result = t.result) ∧
      ((t.absent = s.absent ∧ t'.absent = s'.absent) ∨ t'.absent = t.absent)

/-- R35: an accepted issue copies the word and DIN into the latches, and the completion reads L.CMD and L.DIN, never the live
DIN, so host writes to DIN after the issue do not change it. -/
def Obligations.DinWritesAfterIssueDoNotMatter : Prop :=
  (∀ (s : State) (w : Word), s.busy = false → (s.issue w).busy = true →
    (s.issue w).lcmd = w ∧ (s.issue w).ldin = s.din.l3 ++ s.din.l2 ++ s.din.l1 ++ s.din.l0) ∧
  (∀ (i : Instr) (s : State) (d : Limbs),
    exec i { s with din := d } = mapNext (fun t => { t with din := d }) (exec i s)) ∧
  (∀ (s : State) (i : Instr), s.busy = true → s.agenda = [] → decode s.lcmd = .ok i → step s = exec i s)

/-- The state after reset is legal, with nothing in flight and RESULT = 0. -/
def Obligations.ResetStateIsLegal : Prop :=
  Legal State.reset ∧ State.reset.busy = false ∧ State.reset.result = 0#64

/-- Every step keeps the legal states legal: the canonical invariant (R20), the legal values of STATUS (R25), a latch that an
issue accepts (R112), RESULT (R27), DOUT and SQRT_G. -/
def Obligations.EveryStepKeepsLegalStates : Prop :=
  ∀ s t : State, Legal s → step s = .next t → Legal t

/-- R117: from a legal state no step faults, and a step whose next arrival is not an undefined access has a next state. -/
def Obligations.NoAcceptedCommandFaultsOrHangs : Prop :=
  ∀ s : State, Legal s →
    (∀ r : Fault, step s ≠ .fault r) ∧
    (agendaDefined s.agenda = true → ∃ t, step s = .next t)

/-- R131, R130: a run from a legal state with defined accesses ends: within two steps per arrival and one more, nothing is
left to arrive and no command is in flight. -/
def Obligations.EveryRunSettles : Prop :=
  ∀ s : State, Legal s → agendaDefined s.agenda = true →
    ∃ (k : Nat) (t : State), k ≤ 2 * s.agenda.length + 1 ∧
      Host.Core.run Sys2Proof.core k s = .next t ∧ Settled t ∧ Legal t

/-! ## The host's notation and the source's properties (R47, R69, 95_test_vectors.md 1.1) -/

/-- R69: SETU64, SET256, LOADM, EXPI and EQ, run from a state with BUSY = 0, do what their expansions say. The numbers of
steps, 4 and 7, rest on the model's place of a completion, at the WAIT, which the next step passes (log 1 and 2); that EQ
adds one value to the record of reads rests on the polls of a WAIT not being recorded (log 13). ISZERO is EQ with a register
that holds 0. -/
def Obligations.PseudoCommandsRunTheirExpansions : Prop :=
  ∀ (s : State) (rest : List Arrival), s.busy = false →
    (∀ (fd : Reg) (v : Word), s.agenda = pseudoSetU64 fd v ++ rest →
      ∃ t : State, Host.Core.run Sys2Proof.core 4 s = .next t ∧ t.agenda = rest ∧ t.busy = false ∧ t.err = s.err ∧
        t.f = s.f.set fd.val (BitVec.ofNat 256 (mont v.toNat))) ∧
    (∀ (fd : Reg) (v : Elem), s.agenda = pseudoSet256 fd v ++ rest →
      ∃ t : State, Host.Core.run Sys2Proof.core 7 s = .next t ∧ t.agenda = rest ∧ t.busy = false ∧ t.err = s.err ∧
        t.f = s.f.set fd.val (BitVec.ofNat 256 (mont (v.toNat % q)))) ∧
    (∀ (fd : Reg) (v : Elem), v.toNat < q → s.agenda = pseudoLoadM fd v ++ rest →
      ∃ t : State, Host.Core.run Sys2Proof.core 7 s = .next t ∧ t.agenda = rest ∧ t.busy = false ∧ t.err = s.err ∧
        t.f = s.f.set fd.val v) ∧
    (∀ (fd fs1 : Reg) (e : Elem), s.agenda = pseudoExpI fd fs1 e ++ rest →
      ∃ t : State, Host.Core.run Sys2Proof.core 7 s = .next t ∧ t.agenda = rest ∧ t.busy = false ∧ t.err = s.err ∧
        t.f = s.f.set fd.val (BitVec.ofNat 256 (modExp (s.reg fs1) e.toNat))) ∧
    (∀ (fs1 fs2 : Reg), s.reg fs1 < q → s.reg fs2 < q → s.agenda = pseudoEq fs1 fs2 ++ rest →
      ∃ (t : State) (v : Word), Host.Core.run Sys2Proof.core 4 s = .next t ∧ t.agenda = rest ∧ t.busy = false ∧
        t.f = s.f ∧ t.reads = v :: s.reads ∧ (v = 0#64 ↔ s.reg fs1 = s.reg fs2))

/-- R47 and the round trip of the source: the 32-byte big-endian encoding, its decoding, and LDR followed by STR on a value
below q. -/
def Obligations.ByteEncodingRoundTrips : Prop :=
  (∀ v : Elem, (encodeBytes v).length = 32 ∧ decodeBytes (encodeBytes v) = v) ∧
  (∀ (v : Elem) (j : Nat), j < 32 → (encodeBytes v)[j]? = some (v.extractLsb' (248 - 8 * j) 8)) ∧
  (∀ v : Nat, v < q → fromMont (montMul v RSQ) = v)

/-- The source's properties of the field operations (95_test_vectors.md 1.1): identities, additive and multiplicative
inverses, halving undoes doubling. -/
def Obligations.FieldIdentitiesHold : Prop :=
  ∀ x : Nat, x < q →
    modAdd x 0 = x ∧ montMul x ONE = x ∧ modAdd x (modNeg x) = 0 ∧ modHalve (modAdd x x) = x ∧
    modAdd (modHalve x) (modHalve x) = x ∧
    (x ≠ 0 → ∃ v, inverse x = some v ∧ montMul x v = ONE) ∧
    (∀ v, inverse x = some v → inverse v = some x)
end

