-- ==== Sys2Proof/Laws/State.lean ====
section
/-! SUPPORT. One lemma per field per update of the state, each true by rfl, so that no later proof unfolds a record update. -/

namespace Sys2Proof.Machine
open Sys2Proof

variable (s : State)

/-! ### setReg -/

@[simp] theorem State.setReg_f (rd : Reg) (n : Nat) : (s.setReg rd n).f = s.f.set rd.val (elemOf n) := rfl
@[simp] theorem State.setReg_busy (rd : Reg) (n : Nat) : (s.setReg rd n).busy = s.busy := rfl
@[simp] theorem State.setReg_done (rd : Reg) (n : Nat) : (s.setReg rd n).done = s.done := rfl
@[simp] theorem State.setReg_err (rd : Reg) (n : Nat) : (s.setReg rd n).err = s.err := rfl
@[simp] theorem State.setReg_absent (rd : Reg) (n : Nat) : (s.setReg rd n).absent = s.absent := rfl
@[simp] theorem State.setReg_errCode (rd : Reg) (n : Nat) : (s.setReg rd n).errCode = s.errCode := rfl
@[simp] theorem State.setReg_ie (rd : Reg) (n : Nat) : (s.setReg rd n).ie = s.ie := rfl
@[simp] theorem State.setReg_result (rd : Reg) (n : Nat) : (s.setReg rd n).result = s.result := rfl
@[simp] theorem State.setReg_din (rd : Reg) (n : Nat) : (s.setReg rd n).din = s.din := rfl
@[simp] theorem State.setReg_dout (rd : Reg) (n : Nat) : (s.setReg rd n).dout = s.dout := rfl
@[simp] theorem State.setReg_lcmd (rd : Reg) (n : Nat) : (s.setReg rd n).lcmd = s.lcmd := rfl
@[simp] theorem State.setReg_ldin (rd : Reg) (n : Nat) : (s.setReg rd n).ldin = s.ldin := rfl
@[simp] theorem State.setReg_sqrtG (rd : Reg) (n : Nat) : (s.setReg rd n).sqrtG = s.sqrtG := rfl
@[simp] theorem State.setReg_agenda (rd : Reg) (n : Nat) : (s.setReg rd n).agenda = s.agenda := rfl
@[simp] theorem State.setReg_reads (rd : Reg) (n : Nat) : (s.setReg rd n).reads = s.reads := rfl

/-! ### setRange -/

@[simp] theorem State.setRange_f (first : Reg) (ns : List Nat) : (s.setRange first ns).f = writeFrom first.val ns s.f := rfl
@[simp] theorem State.setRange_busy (first : Reg) (ns : List Nat) : (s.setRange first ns).busy = s.busy := rfl
@[simp] theorem State.setRange_done (first : Reg) (ns : List Nat) : (s.setRange first ns).done = s.done := rfl
@[simp] theorem State.setRange_err (first : Reg) (ns : List Nat) : (s.setRange first ns).err = s.err := rfl
@[simp] theorem State.setRange_absent (first : Reg) (ns : List Nat) : (s.setRange first ns).absent = s.absent := rfl
@[simp] theorem State.setRange_errCode (first : Reg) (ns : List Nat) : (s.setRange first ns).errCode = s.errCode := rfl
@[simp] theorem State.setRange_ie (first : Reg) (ns : List Nat) : (s.setRange first ns).ie = s.ie := rfl
@[simp] theorem State.setRange_result (first : Reg) (ns : List Nat) : (s.setRange first ns).result = s.result := rfl
@[simp] theorem State.setRange_din (first : Reg) (ns : List Nat) : (s.setRange first ns).din = s.din := rfl
@[simp] theorem State.setRange_dout (first : Reg) (ns : List Nat) : (s.setRange first ns).dout = s.dout := rfl
@[simp] theorem State.setRange_lcmd (first : Reg) (ns : List Nat) : (s.setRange first ns).lcmd = s.lcmd := rfl
@[simp] theorem State.setRange_ldin (first : Reg) (ns : List Nat) : (s.setRange first ns).ldin = s.ldin := rfl
@[simp] theorem State.setRange_sqrtG (first : Reg) (ns : List Nat) : (s.setRange first ns).sqrtG = s.sqrtG := rfl
@[simp] theorem State.setRange_agenda (first : Reg) (ns : List Nat) : (s.setRange first ns).agenda = s.agenda := rfl
@[simp] theorem State.setRange_reads (first : Reg) (ns : List Nat) : (s.setRange first ns).reads = s.reads := rfl

/-! ### setResult -/

@[simp] theorem State.setResult_f (w : Word) : (s.setResult w).f = s.f := rfl
@[simp] theorem State.setResult_busy (w : Word) : (s.setResult w).busy = s.busy := rfl
@[simp] theorem State.setResult_done (w : Word) : (s.setResult w).done = s.done := rfl
@[simp] theorem State.setResult_err (w : Word) : (s.setResult w).err = s.err := rfl
@[simp] theorem State.setResult_absent (w : Word) : (s.setResult w).absent = s.absent := rfl
@[simp] theorem State.setResult_errCode (w : Word) : (s.setResult w).errCode = s.errCode := rfl
@[simp] theorem State.setResult_ie (w : Word) : (s.setResult w).ie = s.ie := rfl
@[simp] theorem State.setResult_result (w : Word) : (s.setResult w).result = w := rfl
@[simp] theorem State.setResult_din (w : Word) : (s.setResult w).din = s.din := rfl
@[simp] theorem State.setResult_dout (w : Word) : (s.setResult w).dout = s.dout := rfl
@[simp] theorem State.setResult_lcmd (w : Word) : (s.setResult w).lcmd = s.lcmd := rfl
@[simp] theorem State.setResult_ldin (w : Word) : (s.setResult w).ldin = s.ldin := rfl
@[simp] theorem State.setResult_sqrtG (w : Word) : (s.setResult w).sqrtG = s.sqrtG := rfl
@[simp] theorem State.setResult_agenda (w : Word) : (s.setResult w).agenda = s.agenda := rfl
@[simp] theorem State.setResult_reads (w : Word) : (s.setResult w).reads = s.reads := rfl

/-! ### setAbsent -/

@[simp] theorem State.setAbsent_f (b : Bool) : (s.setAbsent b).f = s.f := rfl
@[simp] theorem State.setAbsent_busy (b : Bool) : (s.setAbsent b).busy = s.busy := rfl
@[simp] theorem State.setAbsent_done (b : Bool) : (s.setAbsent b).done = s.done := rfl
@[simp] theorem State.setAbsent_err (b : Bool) : (s.setAbsent b).err = s.err := rfl
@[simp] theorem State.setAbsent_absent (b : Bool) : (s.setAbsent b).absent = b := rfl
@[simp] theorem State.setAbsent_errCode (b : Bool) : (s.setAbsent b).errCode = s.errCode := rfl
@[simp] theorem State.setAbsent_ie (b : Bool) : (s.setAbsent b).ie = s.ie := rfl
@[simp] theorem State.setAbsent_result (b : Bool) : (s.setAbsent b).result = s.result := rfl
@[simp] theorem State.setAbsent_din (b : Bool) : (s.setAbsent b).din = s.din := rfl
@[simp] theorem State.setAbsent_dout (b : Bool) : (s.setAbsent b).dout = s.dout := rfl
@[simp] theorem State.setAbsent_lcmd (b : Bool) : (s.setAbsent b).lcmd = s.lcmd := rfl
@[simp] theorem State.setAbsent_ldin (b : Bool) : (s.setAbsent b).ldin = s.ldin := rfl
@[simp] theorem State.setAbsent_sqrtG (b : Bool) : (s.setAbsent b).sqrtG = s.sqrtG := rfl
@[simp] theorem State.setAbsent_agenda (b : Bool) : (s.setAbsent b).agenda = s.agenda := rfl
@[simp] theorem State.setAbsent_reads (b : Bool) : (s.setAbsent b).reads = s.reads := rfl

/-! ### setDout -/

@[simp] theorem State.setDout_f (n : Nat) : (s.setDout n).f = s.f := rfl
@[simp] theorem State.setDout_busy (n : Nat) : (s.setDout n).busy = s.busy := rfl
@[simp] theorem State.setDout_done (n : Nat) : (s.setDout n).done = s.done := rfl
@[simp] theorem State.setDout_err (n : Nat) : (s.setDout n).err = s.err := rfl
@[simp] theorem State.setDout_absent (n : Nat) : (s.setDout n).absent = s.absent := rfl
@[simp] theorem State.setDout_errCode (n : Nat) : (s.setDout n).errCode = s.errCode := rfl
@[simp] theorem State.setDout_ie (n : Nat) : (s.setDout n).ie = s.ie := rfl
@[simp] theorem State.setDout_result (n : Nat) : (s.setDout n).result = s.result := rfl
@[simp] theorem State.setDout_din (n : Nat) : (s.setDout n).din = s.din := rfl
@[simp] theorem State.setDout_dout (n : Nat) : (s.setDout n).dout = limbsOfElem (elemOf n) := rfl
@[simp] theorem State.setDout_lcmd (n : Nat) : (s.setDout n).lcmd = s.lcmd := rfl
@[simp] theorem State.setDout_ldin (n : Nat) : (s.setDout n).ldin = s.ldin := rfl
@[simp] theorem State.setDout_sqrtG (n : Nat) : (s.setDout n).sqrtG = s.sqrtG := rfl
@[simp] theorem State.setDout_agenda (n : Nat) : (s.setDout n).agenda = s.agenda := rfl
@[simp] theorem State.setDout_reads (n : Nat) : (s.setDout n).reads = s.reads := rfl

/-! ### complete -/

@[simp] theorem State.complete_f : (s.complete).f = s.f := rfl
@[simp] theorem State.complete_busy : (s.complete).busy = false := rfl
@[simp] theorem State.complete_done : (s.complete).done = true := rfl
@[simp] theorem State.complete_err : (s.complete).err = s.err := rfl
@[simp] theorem State.complete_absent : (s.complete).absent = s.absent := rfl
@[simp] theorem State.complete_errCode : (s.complete).errCode = s.errCode := rfl
@[simp] theorem State.complete_ie : (s.complete).ie = s.ie := rfl
@[simp] theorem State.complete_result : (s.complete).result = s.result := rfl
@[simp] theorem State.complete_din : (s.complete).din = s.din := rfl
@[simp] theorem State.complete_dout : (s.complete).dout = s.dout := rfl
@[simp] theorem State.complete_lcmd : (s.complete).lcmd = s.lcmd := rfl
@[simp] theorem State.complete_ldin : (s.complete).ldin = s.ldin := rfl
@[simp] theorem State.complete_sqrtG : (s.complete).sqrtG = s.sqrtG := rfl
@[simp] theorem State.complete_agenda : (s.complete).agenda = s.agenda := rfl
@[simp] theorem State.complete_reads : (s.complete).reads = s.reads := rfl

/-! ### recordError -/

@[simp] theorem State.recordError_f (c : ErrCode) : (s.recordError c).f = s.f := rfl
@[simp] theorem State.recordError_busy (c : ErrCode) : (s.recordError c).busy = s.busy := rfl
@[simp] theorem State.recordError_done (c : ErrCode) : (s.recordError c).done = s.done := rfl
@[simp] theorem State.recordError_err (c : ErrCode) : (s.recordError c).err = true := rfl
@[simp] theorem State.recordError_absent (c : ErrCode) : (s.recordError c).absent = s.absent := rfl
@[simp] theorem State.recordError_errCode (c : ErrCode) : (s.recordError c).errCode = if s.err then s.errCode else c := rfl
@[simp] theorem State.recordError_ie (c : ErrCode) : (s.recordError c).ie = s.ie := rfl
@[simp] theorem State.recordError_result (c : ErrCode) : (s.recordError c).result = s.result := rfl
@[simp] theorem State.recordError_din (c : ErrCode) : (s.recordError c).din = s.din := rfl
@[simp] theorem State.recordError_dout (c : ErrCode) : (s.recordError c).dout = s.dout := rfl
@[simp] theorem State.recordError_lcmd (c : ErrCode) : (s.recordError c).lcmd = s.lcmd := rfl
@[simp] theorem State.recordError_ldin (c : ErrCode) : (s.recordError c).ldin = s.ldin := rfl
@[simp] theorem State.recordError_sqrtG (c : ErrCode) : (s.recordError c).sqrtG = s.sqrtG := rfl
@[simp] theorem State.recordError_agenda (c : ErrCode) : (s.recordError c).agenda = s.agenda := rfl
@[simp] theorem State.recordError_reads (c : ErrCode) : (s.recordError c).reads = s.reads := rfl

/-! ### refuse -/

@[simp] theorem State.refuse_f (c : ErrCode) : (s.refuse c).f = s.f := rfl
@[simp] theorem State.refuse_busy (c : ErrCode) : (s.refuse c).busy = s.busy := rfl
@[simp] theorem State.refuse_done (c : ErrCode) : (s.refuse c).done = true := rfl
@[simp] theorem State.refuse_err (c : ErrCode) : (s.refuse c).err = true := rfl
@[simp] theorem State.refuse_absent (c : ErrCode) : (s.refuse c).absent = s.absent := rfl
@[simp] theorem State.refuse_errCode (c : ErrCode) : (s.refuse c).errCode = if s.err then s.errCode else c := rfl
@[simp] theorem State.refuse_ie (c : ErrCode) : (s.refuse c).ie = s.ie := rfl
@[simp] theorem State.refuse_result (c : ErrCode) : (s.refuse c).result = s.result := rfl
@[simp] theorem State.refuse_din (c : ErrCode) : (s.refuse c).din = s.din := rfl
@[simp] theorem State.refuse_dout (c : ErrCode) : (s.refuse c).dout = s.dout := rfl
@[simp] theorem State.refuse_lcmd (c : ErrCode) : (s.refuse c).lcmd = s.lcmd := rfl
@[simp] theorem State.refuse_ldin (c : ErrCode) : (s.refuse c).ldin = s.ldin := rfl
@[simp] theorem State.refuse_sqrtG (c : ErrCode) : (s.refuse c).sqrtG = s.sqrtG := rfl
@[simp] theorem State.refuse_agenda (c : ErrCode) : (s.refuse c).agenda = s.agenda := rfl
@[simp] theorem State.refuse_reads (c : ErrCode) : (s.refuse c).reads = s.reads := rfl

/-! ### latch -/

@[simp] theorem State.latch_f (w : Word) : (s.latch w).f = s.f := rfl
@[simp] theorem State.latch_busy (w : Word) : (s.latch w).busy = true := rfl
@[simp] theorem State.latch_done (w : Word) : (s.latch w).done = false := rfl
@[simp] theorem State.latch_err (w : Word) : (s.latch w).err = s.err := rfl
@[simp] theorem State.latch_absent (w : Word) : (s.latch w).absent = s.absent := rfl
@[simp] theorem State.latch_errCode (w : Word) : (s.latch w).errCode = s.errCode := rfl
@[simp] theorem State.latch_ie (w : Word) : (s.latch w).ie = s.ie := rfl
@[simp] theorem State.latch_result (w : Word) : (s.latch w).result = s.result := rfl
@[simp] theorem State.latch_din (w : Word) : (s.latch w).din = s.din := rfl
@[simp] theorem State.latch_dout (w : Word) : (s.latch w).dout = s.dout := rfl
@[simp] theorem State.latch_lcmd (w : Word) : (s.latch w).lcmd = w := rfl
@[simp] theorem State.latch_ldin (w : Word) : (s.latch w).ldin = limbsValue s.din := rfl
@[simp] theorem State.latch_sqrtG (w : Word) : (s.latch w).sqrtG = s.sqrtG := rfl
@[simp] theorem State.latch_agenda (w : Word) : (s.latch w).agenda = s.agenda := rfl
@[simp] theorem State.latch_reads (w : Word) : (s.latch w).reads = s.reads := rfl

/-! ### writeStatus -/

@[simp] theorem State.writeStatus_f (w : Word) : (s.writeStatus w).f = s.f := rfl
@[simp] theorem State.writeStatus_busy (w : Word) : (s.writeStatus w).busy = s.busy := rfl
@[simp] theorem State.writeStatus_done (w : Word) : (s.writeStatus w).done = (s.done && !w.getLsbD 1) := rfl
@[simp] theorem State.writeStatus_err (w : Word) : (s.writeStatus w).err = (s.err && !w.getLsbD 2) := rfl
@[simp] theorem State.writeStatus_absent (w : Word) : (s.writeStatus w).absent = s.absent := rfl
@[simp] theorem State.writeStatus_errCode (w : Word) : (s.writeStatus w).errCode = if w.getLsbD 2 then .noError else s.errCode := rfl
@[simp] theorem State.writeStatus_ie (w : Word) : (s.writeStatus w).ie = s.ie := rfl
@[simp] theorem State.writeStatus_result (w : Word) : (s.writeStatus w).result = s.result := rfl
@[simp] theorem State.writeStatus_din (w : Word) : (s.writeStatus w).din = s.din := rfl
@[simp] theorem State.writeStatus_dout (w : Word) : (s.writeStatus w).dout = s.dout := rfl
@[simp] theorem State.writeStatus_lcmd (w : Word) : (s.writeStatus w).lcmd = s.lcmd := rfl
@[simp] theorem State.writeStatus_ldin (w : Word) : (s.writeStatus w).ldin = s.ldin := rfl
@[simp] theorem State.writeStatus_sqrtG (w : Word) : (s.writeStatus w).sqrtG = s.sqrtG := rfl
@[simp] theorem State.writeStatus_agenda (w : Word) : (s.writeStatus w).agenda = s.agenda := rfl
@[simp] theorem State.writeStatus_reads (w : Word) : (s.writeStatus w).reads = s.reads := rfl

/-! ### writeCtrl -/

@[simp] theorem State.writeCtrl_f (w : Word) : (s.writeCtrl w).f = s.f := rfl
@[simp] theorem State.writeCtrl_busy (w : Word) : (s.writeCtrl w).busy = s.busy := rfl
@[simp] theorem State.writeCtrl_done (w : Word) : (s.writeCtrl w).done = s.done := rfl
@[simp] theorem State.writeCtrl_err (w : Word) : (s.writeCtrl w).err = s.err := rfl
@[simp] theorem State.writeCtrl_absent (w : Word) : (s.writeCtrl w).absent = s.absent := rfl
@[simp] theorem State.writeCtrl_errCode (w : Word) : (s.writeCtrl w).errCode = s.errCode := rfl
@[simp] theorem State.writeCtrl_ie (w : Word) : (s.writeCtrl w).ie = w.getLsbD 0 := rfl
@[simp] theorem State.writeCtrl_result (w : Word) : (s.writeCtrl w).result = s.result := rfl
@[simp] theorem State.writeCtrl_din (w : Word) : (s.writeCtrl w).din = s.din := rfl
@[simp] theorem State.writeCtrl_dout (w : Word) : (s.writeCtrl w).dout = s.dout := rfl
@[simp] theorem State.writeCtrl_lcmd (w : Word) : (s.writeCtrl w).lcmd = s.lcmd := rfl
@[simp] theorem State.writeCtrl_ldin (w : Word) : (s.writeCtrl w).ldin = s.ldin := rfl
@[simp] theorem State.writeCtrl_sqrtG (w : Word) : (s.writeCtrl w).sqrtG = s.sqrtG := rfl
@[simp] theorem State.writeCtrl_agenda (w : Word) : (s.writeCtrl w).agenda = s.agenda := rfl
@[simp] theorem State.writeCtrl_reads (w : Word) : (s.writeCtrl w).reads = s.reads := rfl

/-! ### resetBlock -/

@[simp] theorem resetBlock_f : (resetBlock s).f = State.reset.f := rfl
@[simp] theorem resetBlock_busy : (resetBlock s).busy = State.reset.busy := rfl
@[simp] theorem resetBlock_done : (resetBlock s).done = State.reset.done := rfl
@[simp] theorem resetBlock_err : (resetBlock s).err = State.reset.err := rfl
@[simp] theorem resetBlock_absent : (resetBlock s).absent = State.reset.absent := rfl
@[simp] theorem resetBlock_errCode : (resetBlock s).errCode = State.reset.errCode := rfl
@[simp] theorem resetBlock_ie : (resetBlock s).ie = State.reset.ie := rfl
@[simp] theorem resetBlock_result : (resetBlock s).result = State.reset.result := rfl
@[simp] theorem resetBlock_din : (resetBlock s).din = State.reset.din := rfl
@[simp] theorem resetBlock_dout : (resetBlock s).dout = State.reset.dout := rfl
@[simp] theorem resetBlock_lcmd : (resetBlock s).lcmd = State.reset.lcmd := rfl
@[simp] theorem resetBlock_ldin : (resetBlock s).ldin = State.reset.ldin := rfl
@[simp] theorem resetBlock_sqrtG : (resetBlock s).sqrtG = s.sqrtG := rfl
@[simp] theorem resetBlock_agenda : (resetBlock s).agenda = s.agenda := rfl
@[simp] theorem resetBlock_reads : (resetBlock s).reads = s.reads := rfl

end Sys2Proof.Machine
end

