-- ==== Sys2Proof/Laws/Step.lean ====
section
/-! SUPPORT. Everything issue, a host access, a completion and a step can do, said once: later proofs cite these case lemmas
and unfold neither. -/

namespace Sys2Proof.Machine
open Sys2Proof Sys2Proof.Config

/-! ## Issue (R112) -/

/-- An issue records BUSY, refuses with one of the three other codes, or latches a word that passes every check. -/
theorem issue_cases (s : State) (w : Word) :
    (s.busy = true ∧ s.issue w = s.recordError .busy) ∨
    (s.busy = false ∧ ∃ c, s.issue w = s.refuse c) ∨
    (s.busy = false ∧ s.issue w = s.latch w ∧ ∃ i, decode w = .ok i ∧ WellFormed i = true ∧
      (loadsRaw i = true → (limbsValue s.din).toNat < q)) := by
  by_cases hb : s.busy = true
  · exact .inl ⟨hb, by simp [State.issue, hb]⟩
  · have hb' : s.busy = false := by simpa using hb
    refine .inr ?_
    simp only [State.issue, hb', Bool.false_eq_true, if_false, true_and]
    cases hd : decode w with
    | error e => exact .inl ⟨_, rfl⟩
    | ok i =>
      by_cases hw : WellFormed i = true
      · by_cases hc : (loadsRaw i && decide ((limbsValue s.din).toNat ≥ q)) = true
        · exact .inl ⟨.noncanonical, by simp only [hw, Bool.not_true, Bool.false_eq_true, if_false, hc, if_true]⟩
        · refine .inr ⟨by simp only [hw, Bool.not_true, Bool.false_eq_true, if_false, hc], i, rfl, hw, ?_⟩
          intro hl
          rw [hl, Bool.true_and, decide_eq_true_eq] at hc
          omega
      · exact .inl ⟨.badRange, by simp [hw]⟩

/-! ## Host accesses (R40 - R44) -/

/-- A host read that has a next state changes the read log alone. -/
theorem hostRead_next {s t : State} {width : Nat} {off : BitVec 8} (h : hostRead s width off = .next t) :
    accessDefined width off = true ∧ t = { s with reads := s.readWindow off :: s.reads } := by
  unfold hostRead at h
  split at h
  · next hd => exact ⟨hd, by cases h; rfl⟩
  · cases h

/-- A host write that has a next state is the write at its offset. -/
theorem hostWrite_next {s t : State} {width : Nat} {off : BitVec 8} {w : Word} (h : hostWrite s width off w = .next t) :
    accessDefined width off = true ∧ t = s.writeWindow off w := by
  unfold hostWrite at h
  split at h
  · next hd => exact ⟨hd, by cases h; rfl⟩
  · cases h

/-- A write at a window offset issues, writes STATUS, CTRL or one DIN limb, or is ignored (R22, R40). -/
theorem writeWindow_cases (s : State) (off : BitVec 8) (w : Word) :
    s.writeWindow off w = s.issue w ∨ s.writeWindow off w = s.writeStatus w ∨ s.writeWindow off w = s.writeCtrl w ∨
    (∃ k, s.writeWindow off w = { s with din := setLimbAt s.din k w }) ∨ s.writeWindow off w = s := by
  unfold State.writeWindow
  cases windowReg off with
  | none => simp
  | some r => cases r with
    | din k => exact .inr (.inr (.inr (.inl ⟨k, rfl⟩)))
    | _ => simp [State.writeReg]

/-! ## Completion (R114) -/

theorem completed_next {u t : State} (h : completed u = .next t) : t = u.complete := by cases h; rfl

theorem completedOr_next {r : Fault} {o : Option State} {t : State} (h : completedOr r o = .next t) :
    ∃ u, o = some u ∧ t = u.complete := by
  cases o with
  | none => cases h
  | some u => exact ⟨u, rfl, completed_next h⟩

theorem completedOr_some (r : Fault) (u : State) : completedOr r (some u) = .next u.complete := rfl

/-- SQRT completes with the root written and ABSENT = 0, or with ABSENT = 1 alone. -/
theorem sqrtOutcome_next {rd : Reg} {s t : State} {a : SqrtAnswer} (h : sqrtOutcome rd s a = .next t) :
    (∃ y, a = .root y ∧ t = ((s.setReg rd y).setAbsent false).complete) ∨
    (a = .absent ∧ t = (s.setAbsent true).complete) := by
  cases a with
  | root y => exact .inl ⟨y, rfl, completed_next h⟩
  | absent => exact .inr ⟨rfl, completed_next h⟩
  | stuck => cases h

/-- What a completion leaves where it writes these four items of state. The four are variables, so that the kernel compares
them and never evaluates them. -/
theorem completed_eq (s : State) (f : Vector Elem 16) (d : Limbs) (r : Word) (a : Bool) :
    completed { s with f := f, dout := d, result := r, absent := a } =
      .next { s with f := f, dout := d, result := r, absent := a, busy := false, done := true } := rfl

/-- A completion that has a next state sets BUSY = 0 and DONE = 1 and changes, beside them, at most the element registers,
DOUT, RESULT and ABSENT. -/
theorem exec_next {i : Instr} {s t : State} (h : exec i s = .next t) :
    t = { s with f := t.f, dout := t.dout, result := t.result, absent := t.absent, busy := false, done := true } := by
  have plain : ∀ {f : Vector Elem 16} {d : Limbs} {r : Word} {a : Bool},
      completed { s with f := f, dout := d, result := r, absent := a } = .next t →
      t = { s with f := t.f, dout := t.dout, result := t.result, absent := t.absent, busy := false, done := true } := by
    intro f d r a hc
    rw [completed_next hc]; rfl
  have mapped : ∀ {r : Fault} {α : Type} {o : Option α} {g : α → Vector Elem 16},
      completedOr r (o.map fun v => { s with f := g v }) = .next t →
      t = { s with f := t.f, dout := t.dout, result := t.result, absent := t.absent, busy := false, done := true } := by
    intro r α o g hm
    obtain ⟨u, hu, rfl⟩ := completedOr_next hm
    obtain ⟨v, -, rfl⟩ := Option.map_eq_some_iff.1 hu
    rfl
  cases i with
  | inv rd rs1 => exact mapped h
  | div rd rs1 rs2 => exact mapped h
  | binv rd rs1 n =>
    simp only [exec, execBinv] at h
    split at h
    · exact mapped h
    · cases h
  | sqrt rd rs1 =>
    rw [exec, execSqrt] at h
    generalize sqrtTS _ _ = a at h
    obtain ⟨y, -, rfl⟩ | ⟨-, rfl⟩ := sqrtOutcome_next h <;> rfl
  | _ => exact plain h

/-- A completion never answers a refusal. -/
theorem exec_not_refused (i : Instr) (s : State) (r : Refusal) : exec i s ≠ .refused r := by
  have mapped : ∀ {f : Fault} {o : Option State}, completedOr f o ≠ .refused r := by
    intro f o h; cases o <;> cases h
  cases i with
  | inv rd rs1 => exact mapped
  | div rd rs1 rs2 => exact mapped
  | binv rd rs1 n =>
    simp only [exec, execBinv]
    split
    · exact mapped
    · simp
  | sqrt rd rs1 =>
    intro h
    simp only [exec, execSqrt] at h
    generalize sqrtTS _ _ = a at h
    cases a <;> cases h
  | _ => intro h; cases h

/-! ## One step (R16) -/

/-- A step that has a next state is idle, a host access, a passed WAIT or engine mark, a reset, or the completion of the
command in L.CMD: at an empty agenda or a WAIT on `s` itself, at an engine mark on `s` with the mark passed. -/
theorem step_cases {s t : State} (h : step s = .next t) :
    (s.busy = false ∧ s.agenda = [] ∧ t = s) ∨
    (∃ width off rest, s.agenda = .read width off :: rest ∧ hostRead { s with agenda := rest } width off = .next t) ∨
    (∃ width off w rest, s.agenda = .write width off w :: rest ∧
      hostWrite { s with agenda := rest } width off w = .next t) ∨
    (s.busy = false ∧ ∃ rest, (s.agenda = .wait :: rest ∨ s.agenda = .engine :: rest) ∧ t = { s with agenda := rest }) ∨
    (∃ rest, s.agenda = .reset :: rest ∧ t = resetBlock { s with agenda := rest }) ∨
    (s.busy = true ∧ ∃ i, decode s.lcmd = .ok i ∧
      (((s.agenda = [] ∨ ∃ rest, s.agenda = .wait :: rest) ∧ exec i s = .next t) ∨
        ∃ rest, s.agenda = .engine :: rest ∧ exec i { s with agenda := rest } = .next t)) := by
  have engine : ∀ s' : State, s'.lcmd = s.lcmd →
      (match latchedCommand s' with
        | .ok i => exec i s'
        | .error _ => .fault .latchedWordIsNoCommand) = .next t →
      ∃ i, decode s.lcmd = .ok i ∧ exec i s' = .next t := by
    intro s' hl he
    simp only [latchedCommand, hl] at he
    cases hd : decode s.lcmd with
    | ok i => rw [hd] at he; exact ⟨i, rfl, he⟩
    | error e => rw [hd] at he; cases he
  unfold step at h
  cases ha : s.agenda with
  | nil =>
    simp only [turn, ha] at h
    by_cases hb : s.busy = true
    · rw [if_pos hb] at h
      obtain ⟨i, hd, he⟩ := engine s rfl h
      exact .inr (.inr (.inr (.inr (.inr ⟨hb, i, hd, .inl ⟨.inl rfl, he⟩⟩))))
    · rw [if_neg hb] at h
      cases h
      exact .inl ⟨by simpa using hb, rfl, rfl⟩
  | cons a rest =>
    cases a with
    | read width off =>
      simp only [turn, ha] at h
      exact .inr (.inl ⟨width, off, rest, rfl, h⟩)
    | write width off w =>
      simp only [turn, ha] at h
      exact .inr (.inr (.inl ⟨width, off, w, rest, rfl, h⟩))
    | wait =>
      simp only [turn, ha] at h
      by_cases hb : s.busy = true
      · rw [if_pos hb] at h
        obtain ⟨i, hd, he⟩ := engine s rfl h
        exact .inr (.inr (.inr (.inr (.inr ⟨hb, i, hd, .inl ⟨.inr ⟨rest, rfl⟩, he⟩⟩))))
      · rw [if_neg hb] at h
        cases h
        exact .inr (.inr (.inr (.inl ⟨by simpa using hb, rest, .inl rfl, rfl⟩)))
    | engine =>
      simp only [turn, ha] at h
      by_cases hb : s.busy = true
      · rw [if_pos hb] at h
        obtain ⟨i, hd, he⟩ := engine { s with agenda := rest } rfl h
        exact .inr (.inr (.inr (.inr (.inr ⟨hb, i, hd, .inr ⟨rest, rfl, he⟩⟩))))
      · rw [if_neg hb] at h
        cases h
        exact .inr (.inr (.inr (.inl ⟨by simpa using hb, rest, .inr rfl, rfl⟩)))
    | reset =>
      simp only [turn, ha, Host.Outcome.next.injEq] at h
      exact .inr (.inr (.inr (.inr (.inl ⟨rest, rfl, h.symm⟩))))

end Sys2Proof.Machine
end

