-- ==== Sys2Proof/Laws/Exec.lean ====
section
/-! SUPPORT. The completion of each command as one equation over the primitives, which later proofs rewrite with. No
primitive is unfolded here or there: the kernel must never evaluate one on a variable. -/

namespace Sys2Proof.Machine
open Sys2Proof Sys2Proof.Config

/-- A completion that writes one element register. -/
theorem completed_setReg (s : State) (r : Reg) (n : Nat) :
    completed (s.setReg r n) = .next { s with f := s.f.set r.val (elemOf n), busy := false, done := true } := rfl

/-- A completion that writes DOUT. -/
theorem completed_setDout (s : State) (n : Nat) :
    completed (s.setDout n) = .next { s with dout := limbsOfElem (elemOf n), busy := false, done := true } := rfl

/-- A completion that writes RESULT. -/
theorem completed_setResult (s : State) (w : Word) :
    completed (s.setResult w) = .next { s with result := w, busy := false, done := true } := rfl

variable (s : State) (rd rs1 rs2 : Reg)

theorem exec_nop : exec .nop s = completed s := by rw [exec, execNop]
theorem exec_ld : exec (.ld rd) s = completed (s.setReg rd s.latchedDin) := by rw [exec, execLd]
theorem exec_ldr : exec (.ldr rd) s = completed (s.setReg rd (montMul s.latchedDin RSQ)) := by rw [exec, execLdr]
theorem exec_ldu64 : exec (.ldu64 rd) s = completed (s.setReg rd (montMul s.latchedDin64 RSQ)) := by
  rw [exec, execLdu64]
theorem exec_st : exec (.st rs1) s = completed (s.setDout (s.reg rs1)) := by rw [exec, execSt]
theorem exec_str : exec (.str rs1) s = completed (s.setDout (fromMont (s.reg rs1))) := by rw [exec, execStr]
theorem exec_zero : exec (.zero rd) s = completed (s.setReg rd 0) := by rw [exec, execZero]
theorem exec_one : exec (.one rd) s = completed (s.setReg rd ONE) := by rw [exec, execOne]
theorem exec_mov : exec (.mov rd rs1) s = completed (s.setReg rd (s.reg rs1)) := by rw [exec, execMov]
theorem exec_add : exec (.add rd rs1 rs2) s = completed (s.setReg rd (modAdd (s.reg rs1) (s.reg rs2))) := by
  rw [exec, execAdd]
theorem exec_dbl : exec (.dbl rd rs1) s = completed (s.setReg rd (modAdd (s.reg rs1) (s.reg rs1))) := by
  rw [exec, execDbl]
theorem exec_sub : exec (.sub rd rs1 rs2) s = completed (s.setReg rd (modSub (s.reg rs1) (s.reg rs2))) := by
  rw [exec, execSub]
theorem exec_neg : exec (.neg rd rs1) s = completed (s.setReg rd (modNeg (s.reg rs1))) := by rw [exec, execNeg]
theorem exec_halve : exec (.halve rd rs1) s = completed (s.setReg rd (modHalve (s.reg rs1))) := by rw [exec, execHalve]
theorem exec_mul : exec (.mul rd rs1 rs2) s = completed (s.setReg rd (montMul (s.reg rs1) (s.reg rs2))) := by
  rw [exec, execMul]
theorem exec_sqr : exec (.sqr rd rs1) s = completed (s.setReg rd (montMul (s.reg rs1) (s.reg rs1))) := by
  rw [exec, execSqr]
theorem exec_tomont : exec (.tomont rd rs1) s = completed (s.setReg rd (toMont (s.reg rs1))) := by
  rw [exec, execTomont]
theorem exec_frommont : exec (.frommont rd rs1) s = completed (s.setReg rd (fromMont (s.reg rs1))) := by
  rw [exec, execFrommont]
theorem exec_mulc (c : BitVec 32) :
    exec (.mulc rd rs1 c) s = completed (s.setReg rd (montMul (s.reg rs1) (toMont (immValue c)))) := by
  rw [exec, execMulc]
theorem exec_exp : exec (.exp rd rs1) s = completed (s.setReg rd (modExp (s.reg rs1) s.latchedDin)) := by
  rw [exec, execExp]
theorem exec_leg : exec (.leg rs1) s = completed (s.setResult (legendreResult (modExp (s.reg rs1) LEGEXP))) := by
  rw [exec, execLeg]
theorem exec_inv : exec (.inv rd rs1) s =
    completedOr .inverseDoesNotEnd ((inverse (s.reg rs1)).map fun v => s.setReg rd v) := by rw [exec, execInv]
theorem exec_div : exec (.div rd rs1 rs2) s =
    completedOr .inverseDoesNotEnd ((inverse (s.reg rs2)).map fun v => s.setReg rd (montMul (s.reg rs1) v)) := by
  rw [exec, execDiv]
theorem exec_binv (n : BitVec 32) (h : binvRangesFit rd rs1 n = true) : exec (.binv rd rs1 n) s =
    completedOr .inverseDoesNotEnd
      ((batchInverse (s.regRange rs1 (immValue n))).map fun vs => s.setRange rd vs) := by
  rw [exec, execBinv, if_pos h]
theorem exec_sqrt : exec (.sqrt rd rs1) s = sqrtOutcome rd s (sqrtTS s.sqrtG.toNat (s.reg rs1)) := by
  rw [exec, execSqrt]
theorem exec_cmp : exec (.cmp rs1 rs2) s =
    completed (s.setResult (compareResult (fromMont (s.reg rs1)) (fromMont (s.reg rs2)))) := by rw [exec, execCmp]

end Sys2Proof.Machine
end

