-- ==== Sys2Proof/Laws/Operands.lean ====
section
/-! SUPPORT. Reading and writing element registers, register ranges and limbs, once. -/

namespace Sys2Proof.Machine
open Sys2Proof

variable (s : State)

/-! ## Element registers -/

theorem elemOf_toNat {n : Nat} (h : n < 2 ^ 256) : (elemOf n).toNat = n := by
  rw [elemOf, BitVec.toNat_ofNat]; exact Nat.mod_eq_of_lt h

theorem elemOf_reg (r : Reg) : elemOf (s.reg r) = s.f[r.val] := by
  simp [elemOf, State.reg]

@[simp] theorem setReg_f_same (r : Reg) (n : Nat) : (s.setReg r n).f[r.val] = elemOf n := by
  simp [State.setReg]

theorem setReg_f_ne {r r' : Reg} (h : r'.val ≠ r.val) (n : Nat) : (s.setReg r n).f[r'.val] = s.f[r'.val] := by
  simp only [State.setReg]
  exact Vector.getElem_set_ne _ _ (Ne.symm h)

theorem reg_setReg_same (r : Reg) {n : Nat} (h : n < 2 ^ 256) : (s.setReg r n).reg r = n := by
  simp [State.reg, elemOf_toNat h]

theorem reg_setReg_ne {r r' : Reg} (h : r'.val ≠ r.val) (n : Nat) : (s.setReg r n).reg r' = s.reg r' := by
  simp only [State.reg, setReg_f_ne s h]

/-- A register below q after one is written with a value below q. -/
theorem reg_setReg_lt {b : Nat} (hb : b ≤ 2 ^ 256) (hs : ∀ r, s.reg r < b) (r : Reg) {n : Nat} (hn : n < b) (r' : Reg) :
    (s.setReg r n).reg r' < b := by
  by_cases h : r' = r
  · subst h; rw [reg_setReg_same s _ (by omega)]; exact hn
  · rw [reg_setReg_ne s (fun e => h (Fin.ext e))]; exact hs r'

/-! ## Ranges -/

theorem writeFrom_getElem (ns : List Nat) : ∀ (k : Nat) (f : Vector Elem 16) (j : Nat) (hj : j < 16),
    (writeFrom k ns f)[j] = if h : k ≤ j ∧ j < k + ns.length then elemOf (ns[j - k]'(by omega)) else f[j] := by
  induction ns with
  | nil => intro k f j hj; simp [writeFrom]
  | cons n ns ih =>
    intro k f j hj
    rw [writeFrom, ih]
    rcases Nat.lt_trichotomy j k with h | h | h
    · rw [dif_neg (by omega), dif_neg (by omega), Vector.getElem_setIfInBounds_ne _ (by omega)]
    · subst h
      rw [dif_neg (by omega), dif_pos ⟨le_rfl, by simp⟩]
      simp
    · by_cases hin : j < k + 1 + ns.length
      · rw [dif_pos ⟨by omega, hin⟩, dif_pos ⟨by omega, by simp; omega⟩]
        congr 1
        rw [List.getElem_cons, dif_neg (by omega)]
        congr 1
      · rw [dif_neg (by omega), dif_neg (by simp; omega), Vector.getElem_setIfInBounds_ne _ (by omega)]

theorem regRange_length {first : Reg} {n : Nat} (h : first.val + n ≤ 16) : (s.regRange first n).length = n := by
  simp [State.regRange]; omega

theorem regRange_getElem (first : Reg) {n i : Nat} (h : first.val + n ≤ 16) (hi : i < (s.regRange first n).length) :
    (s.regRange first n)[i] =
      s.reg ⟨first.val + i, by rw [regRange_length s h] at hi; omega⟩ := by
  simp [State.regRange, State.reg]

/-! ## Limbs -/

theorem limbsValue_limbsOfElem (v : Elem) : limbsValue (limbsOfElem v) = v := by
  apply BitVec.eq_of_getLsbD_eq
  intro i hi
  simp only [limbsValue, limbsOfElem, BitVec.getLsbD_append, BitVec.getLsbD_extractLsb']
  split_ifs <;> rw [decide_eq_true (by omega), Bool.true_and] <;> exact congrArg (BitVec.getLsbD v) (by omega)

theorem limbsOfElem_limbsValue (l : Limbs) : limbsOfElem (limbsValue l) = l := by
  cases l
  simp only [limbsOfElem, limbsValue, Limbs.mk.injEq]
  refine ⟨?_, ?_, ?_, ?_⟩ <;>
  · apply BitVec.eq_of_getLsbD_eq
    intro i h
    rw [BitVec.getLsbD_extractLsb', decide_eq_true h, Bool.true_and]
    simp only [BitVec.getLsbD_append]
    split_ifs <;> first | omega | exact congrArg (BitVec.getLsbD _) (by omega)

end Sys2Proof.Machine
end

