-- ==== Sys2Proof/Laws/PerInstr.lean ====
section
/-! SUPPORT. The family EncodeFixedBits: the fixed bits of every command's word, one lemma per constructor. -/

namespace Sys2Proof.Laws.EncodeFixedBits
open Sys2Proof

/-- The word of the command matches its row of the opcode table under the mask 0x00000000FFF000FF: OPC in bits 7:0 and
RSV = 0 in bits 31:20 (R64). -/
def Statement (i : Instr) : Prop := encode i &&& 0x00000000FFF000FF#64 = (opcodeOf i).setWidth 64

/-- The bits of a word under the mask, when its RSV is 0. -/
theorem wordOf_and_mask (opc : BitVec 8) (a b c : BitVec 4) (imm : BitVec 32) :
    wordOf ⟨opc, a, b, c, 0#12, imm⟩ &&& 0x00000000FFF000FF#64 = opc.setWidth 64 := by
  apply BitVec.eq_of_getLsbD_eq
  intro i hi
  simp only [wordOf, BitVec.getLsbD_and, BitVec.getLsbD_or, BitVec.getLsbD_shiftLeft, BitVec.getLsbD_setWidth]
  interval_cases i <;> simp

theorem nop : Statement .nop := wordOf_and_mask _ _ _ _ _
theorem ld (a : Reg) : Statement (.ld a) := wordOf_and_mask _ _ _ _ _
theorem ldr (a : Reg) : Statement (.ldr a) := wordOf_and_mask _ _ _ _ _
theorem ldu64 (a : Reg) : Statement (.ldu64 a) := wordOf_and_mask _ _ _ _ _
theorem st (a : Reg) : Statement (.st a) := wordOf_and_mask _ _ _ _ _
theorem str (a : Reg) : Statement (.str a) := wordOf_and_mask _ _ _ _ _
theorem zero (a : Reg) : Statement (.zero a) := wordOf_and_mask _ _ _ _ _
theorem one (a : Reg) : Statement (.one a) := wordOf_and_mask _ _ _ _ _
theorem mov (a b : Reg) : Statement (.mov a b) := wordOf_and_mask _ _ _ _ _
theorem add (a b c : Reg) : Statement (.add a b c) := wordOf_and_mask _ _ _ _ _
theorem dbl (a b : Reg) : Statement (.dbl a b) := wordOf_and_mask _ _ _ _ _
theorem sub (a b c : Reg) : Statement (.sub a b c) := wordOf_and_mask _ _ _ _ _
theorem neg (a b : Reg) : Statement (.neg a b) := wordOf_and_mask _ _ _ _ _
theorem halve (a b : Reg) : Statement (.halve a b) := wordOf_and_mask _ _ _ _ _
theorem mul (a b c : Reg) : Statement (.mul a b c) := wordOf_and_mask _ _ _ _ _
theorem sqr (a b : Reg) : Statement (.sqr a b) := wordOf_and_mask _ _ _ _ _
theorem tomont (a b : Reg) : Statement (.tomont a b) := wordOf_and_mask _ _ _ _ _
theorem frommont (a b : Reg) : Statement (.frommont a b) := wordOf_and_mask _ _ _ _ _
theorem mulc (a b : Reg) (c : BitVec 32) : Statement (.mulc a b c) := wordOf_and_mask _ _ _ _ _
theorem exp (a b : Reg) : Statement (.exp a b) := wordOf_and_mask _ _ _ _ _
theorem leg (a : Reg) : Statement (.leg a) := wordOf_and_mask _ _ _ _ _
theorem inv (a b : Reg) : Statement (.inv a b) := wordOf_and_mask _ _ _ _ _
theorem div (a b c : Reg) : Statement (.div a b c) := wordOf_and_mask _ _ _ _ _
theorem binv (a b : Reg) (c : BitVec 32) : Statement (.binv a b c) := wordOf_and_mask _ _ _ _ _
theorem sqrt (a b : Reg) : Statement (.sqrt a b) := wordOf_and_mask _ _ _ _ _
theorem cmp (a b : Reg) : Statement (.cmp a b) := wordOf_and_mask _ _ _ _ _

end Sys2Proof.Laws.EncodeFixedBits
end

