-- ==== Sys2Proof/Laws/Primitives.lean ====
section
/-! SUPPORT. What the constants and the primitives compute, once: later proofs cite these lemmas and unfold nothing. -/

namespace Sys2Proof.Machine
open Sys2Proof Sys2Proof.Config

/-! ## The constants (R32) -/

theorem q_pos : 0 < q := by decide
theorem q_lt_R : q < R := by decide
theorem two_q_lt_R : 2 * q < R := by decide
theorem RSQ_eq : RSQ = R * R % q := by decide
theorem RSQ_lt : RSQ < q := by decide
theorem ONE_eq : ONE = R % q := by decide
theorem ONE_lt : ONE < q := by decide
theorem QINV_eq : (QINV * q + 1) % W = 0 := by decide
theorem LEGEXP_eq : LEGEXP = (q - 1) / 2 := by decide
theorem T_eq : q - 1 = 2 ^ S * T := by decide
theorem SQRTEXP_eq : SQRTEXP = (T - 1) / 2 := by decide
theorem q_mul_qInvR : q * qInvR % R = 1 := by decide
theorem R_mul_rInv : R * rInv % q = 1 := by decide
theorem rInv_lt : rInv < q := by decide

/-- R·R^-1 ≡ 1 modulo q. -/
theorem R_mul_rInv_modEq : R * rInv ≡ 1 [MOD q] := by decide

theorem coprime_R_q : Nat.Coprime R q := by decide +kernel

/-- A congruence may be freed of a factor R. -/
theorem modEq_of_mul_R {a b : Nat} (h : a * R ≡ b * R [MOD q]) : a ≡ b [MOD q] :=
  Nat.ModEq.cancel_right_of_coprime (by rw [Nat.gcd_comm]; exact coprime_R_q) h

/-! ## The reduction core and the modular adder and subtractor (R79 - R85) -/

theorem condSub_lt {z : Nat} (h : z < 2 * q) : condSub z < q := by
  unfold condSub; split <;> omega

theorem condSub_eq_mod {z : Nat} (h : z < 2 * q) : condSub z = z % q := by
  unfold condSub
  split
  · rw [Nat.mod_eq_sub_mod (by omega), Nat.mod_eq_of_lt (by omega)]
  · rw [Nat.mod_eq_of_lt (by omega)]

theorem modAdd_eq {x y : Nat} (hx : x < q) (hy : y < q) : modAdd x y = (x + y) % q :=
  condSub_eq_mod (by omega)

theorem modSub_eq {x y : Nat} (hx : x < q) (hy : y < q) : modSub x y = (x + q - y) % q := by
  unfold modSub
  split
  · rw [Nat.mod_eq_of_lt (by omega)]
  · rw [show x + q - y = x - y + q by omega, Nat.add_mod_right, Nat.mod_eq_of_lt (by omega)]

theorem modNeg_eq {x : Nat} (hx : x < q) : modNeg x = (q - x) % q := by
  unfold modNeg
  split
  · next h => simp [h]
  · rw [Nat.mod_eq_of_lt (by omega)]

theorem q_odd : q % 2 = 1 := by decide

theorem modHalve_eq (x : Nat) : modHalve x = if x % 2 = 1 then (x + q) / 2 else x / 2 := by
  unfold modHalve
  split <;> simp [Nat.shiftRight_eq_div_pow]

/-- Twice the half is the value itself, or the value and q. -/
theorem two_mul_modHalve (x : Nat) : 2 * modHalve x = if x % 2 = 1 then x + q else x := by
  have := q_odd
  rw [modHalve_eq]
  split <;> omega

theorem modHalve_lt {x : Nat} (hx : x < q) : modHalve x < q := by
  have h := two_mul_modHalve x
  split at h <;> omega

theorem modSub_lt {x y : Nat} (hx : x < q) (hy : y < q) : modSub x y < q := by
  rw [modSub_eq hx hy]; exact Nat.mod_lt _ q_pos

theorem modNeg_lt {x : Nat} (hx : x < q) : modNeg x < q := by
  rw [modNeg_eq hx]; exact Nat.mod_lt _ q_pos

/-! ## The Montgomery multiplier (R87 - R90) -/

theorem ciosMultiplier_lt (x y : Nat) : ciosMultiplier x y < R := Nat.mod_lt _ (by decide)

/-- The division of R87 is exact. -/
theorem R_dvd_cios_sum (x y : Nat) : R ∣ x * y + ciosMultiplier x y * q := by
  have hq : qInvR * q ≡ 1 [MOD R] := by rw [Nat.mul_comm]; exact q_mul_qInvR
  have hlt : x * y * qInvR % R < R := Nat.mod_lt _ (by decide)
  have hM : ciosMultiplier x y + x * y * qInvR ≡ 0 [MOD R] := by
    unfold ciosMultiplier
    calc (R - x * y * qInvR % R) % R + x * y * qInvR
        ≡ (R - x * y * qInvR % R) + x * y * qInvR % R [MOD R] :=
          (Nat.mod_modEq _ _).add (Nat.mod_modEq _ _).symm
      _ ≡ 0 [MOD R] := by rw [Nat.sub_add_cancel hlt.le]; exact (Nat.modEq_zero_iff_dvd).2 dvd_rfl
  apply (Nat.modEq_zero_iff_dvd).1
  calc x * y + ciosMultiplier x y * q
      ≡ x * y * (qInvR * q) + ciosMultiplier x y * q [MOD R] := by
        have h1 := (hq.mul_left (x * y)).symm
        rw [Nat.mul_one] at h1
        exact h1.add_right _
    _ = (ciosMultiplier x y + x * y * qInvR) * q := by ring
    _ ≡ 0 * q [MOD R] := hM.mul_right q
    _ = 0 := by simp

/-- R87's value, free of its division. -/
theorem cios_mul_R (x y : Nat) : cios x y * R = x * y + ciosMultiplier x y * q :=
  Nat.div_mul_cancel (R_dvd_cios_sum x y)

/-- R88's bound. -/
theorem cios_lt {x y : Nat} (h : x * y < q * R) : cios x y < 2 * q := by
  have hM : ciosMultiplier x y * q < R * q := Nat.mul_lt_mul_of_pos_right (ciosMultiplier_lt x y) q_pos
  have := cios_mul_R x y
  have hR : 0 < R := by decide
  apply Nat.lt_of_mul_lt_mul_right (a := R)
  rw [this, show 2 * q * R = q * R + R * q by ring]
  omega

theorem cios_modEq (x y : Nat) : cios x y ≡ x * y * rInv [MOD q] := by
  have h : cios x y * R ≡ x * y [MOD q] := by
    rw [cios_mul_R]
    simp
  apply modEq_of_mul_R
  calc cios x y * R ≡ x * y * 1 [MOD q] := by simpa using h
    _ ≡ x * y * (R * rInv) [MOD q] := (R_mul_rInv_modEq.symm).mul_left _
    _ = x * y * rInv * R := by ring

theorem montMul_lt {x y : Nat} (h : x * y < q * R) : montMul x y < q := condSub_lt (cios_lt h)

/-- R89: MontMul(x, y) = x·y·R^-1 mod q under the bound of R88. -/
theorem montMul_eq {x y : Nat} (h : x * y < q * R) : montMul x y = x * y * rInv % q := by
  rw [montMul, condSub_eq_mod (cios_lt h)]; exact cios_modEq x y

theorem bound_of_lt_q {x y : Nat} (hx : x < q) (hy : y < q) : x * y < q * R := by
  have := Nat.mul_lt_mul'' hx (hy.trans q_lt_R); exact this

theorem bound_of_lt_R {x y : Nat} (hx : x < R) (hy : y < q) : x * y < q * R := by
  rw [Nat.mul_comm q R]; exact Nat.mul_lt_mul'' hx hy

theorem montMul_of_lt {x y : Nat} (hx : x < q) (hy : y < q) : montMul x y = x * y * rInv % q :=
  montMul_eq (bound_of_lt_q hx hy)

theorem mont_lt (v : Nat) : mont v < q := Nat.mod_lt _ q_pos

theorem mont_modEq (v : Nat) : mont v ≡ v * R [MOD q] := Nat.mod_modEq _ _

/-- A stored value is the Montgomery form of its regular value. -/
theorem mont_reg {x : Nat} (hx : x < q) : mont (reg x) = x := by
  have h : reg x * R ≡ x [MOD q] := by
    calc reg x * R ≡ x * rInv * R [MOD q] := (Nat.mod_modEq _ _).mul_right R
      _ = x * (R * rInv) := by ring
      _ ≡ x * 1 [MOD q] := R_mul_rInv_modEq.mul_left x
      _ = x := by simp
  exact ((mont_modEq _).trans h).eq_of_lt_of_lt (mont_lt _) hx

/-- "MontMul(Mont(a), Mont(b)) = Mont(a·b)" (R89). -/
theorem montMul_mont (a b : Nat) : montMul (mont a) (mont b) = mont (a * b) := by
  rw [montMul_of_lt (mont_lt a) (mont_lt b)]
  have : mont a * mont b * rInv ≡ a * b * R [MOD q] := by
    calc mont a * mont b * rInv ≡ a * R * (b * R) * rInv [MOD q] :=
          ((mont_modEq a).mul (mont_modEq b)).mul_right rInv
      _ = a * b * R * (R * rInv) := by ring
      _ ≡ a * b * R * 1 [MOD q] := R_mul_rInv_modEq.mul_left _
      _ = a * b * R := by simp
  exact this

theorem toMont_eq {x : Nat} (hx : x < R) : toMont x = mont x := by
  rw [toMont, montMul_eq (bound_of_lt_R hx RSQ_lt)]
  have : x * RSQ * rInv ≡ x * R [MOD q] := by
    calc x * RSQ * rInv ≡ x * (R * R) * rInv [MOD q] := by
          have : RSQ ≡ R * R [MOD q] := by rw [RSQ_eq]; exact Nat.mod_modEq _ _
          exact (this.mul_left x).mul_right rInv
      _ = x * R * (R * rInv) := by ring
      _ ≡ x * R * 1 [MOD q] := R_mul_rInv_modEq.mul_left _
      _ = x * R := by simp
  exact this

theorem fromMont_eq {x : Nat} (hx : x < q) : fromMont x = reg x := by
  rw [fromMont, montMul_of_lt hx (by decide)]; simp [reg]

/-! ## Exponentiation (R96) -/

theorem expLoop_mont (a e : Nat) : ∀ i k, expLoop (mont a) e (mont (a ^ k)) i = mont (a ^ (k * 2 ^ i + e % 2 ^ i)) := by
  intro i
  induction i with
  | zero => intro k; simp [expLoop, Nat.mod_one]
  | succ i ih =>
    intro k
    have hsplit : e % 2 ^ (i + 1) = 2 ^ i * (e / 2 ^ i % 2) + e % 2 ^ i := by
      rw [Nat.pow_succ, Nat.mod_mul]; ring
    have htest : e.testBit i = decide (e / 2 ^ i % 2 = 1) := by
      simp [Nat.testBit_eq_decide_div_mod_eq]
    rw [expLoop, htest]
    by_cases hb : e / 2 ^ i % 2 = 1
    · simp only [hb, decide_true, if_true]
      rw [montMul_mont, montMul_mont, ← pow_add, ← pow_succ, ih, hsplit, hb]
      congr 2; ring
    · have hb0 : e / 2 ^ i % 2 = 0 := by omega
      simp only [hb0, Nat.zero_ne_one, decide_false, Bool.false_eq_true, if_false]
      rw [montMul_mont, ← pow_add, ih, hsplit, hb0]
      congr 2; ring

/-- "Exp(x, e) = Mont(a^e), with a^0 = 1 for every a including 0" (R96). -/
theorem modExp_mont (a e : Nat) : modExp (mont a) e = mont (a ^ e) := by
  unfold modExp
  split
  · next h => subst h; simp [mont, ONE_eq]
  · next h =>
    have h1 : 2 ^ Nat.log2 e ≤ e := Nat.log2_self_le h
    have h2 : e < 2 ^ (Nat.log2 e + 1) := Nat.lt_log2_self
    have hmod : e % 2 ^ Nat.log2 e = e - 2 ^ Nat.log2 e := by
      rw [Nat.pow_succ] at h2
      rw [Nat.mod_eq_sub_mod h1, Nat.mod_eq_of_lt (by omega)]
    have := expLoop_mont a e (Nat.log2 e) 1
    rw [pow_one, one_mul, hmod, Nat.add_sub_cancel' h1] at this
    exact this

theorem modExp_lt {x : Nat} (hx : x < q) (e : Nat) : modExp x e < q := by
  rw [← mont_reg hx, modExp_mont]; exact mont_lt _

theorem squareTimes_mont (n : Nat) : ∀ a, squareTimes (mont a) n = mont (a ^ 2 ^ n) := by
  induction n with
  | zero => intro a; simp [squareTimes]
  | succ n ih => intro a; rw [squareTimes, montMul_mont, ih]; congr 1; ring

/-! ## q is prime (R6) -/

theorem pow_mod_q (a e : Nat) : a ^ e % q = reg (modExp (mont a) e) := by
  rw [modExp_mont]
  have h : mont (a ^ e) * rInv ≡ a ^ e [MOD q] := by
    calc mont (a ^ e) * rInv ≡ a ^ e * R * rInv [MOD q] := (mont_modEq _).mul_right rInv
      _ = a ^ e * (R * rInv) := by ring
      _ ≡ a ^ e * 1 [MOD q] := R_mul_rInv_modEq.mul_left _
      _ = a ^ e := by simp
  exact h.symm

theorem zmod_pow_eq_one_iff (n a e : Nat) : (a : ZMod n) ^ e = 1 ↔ a ^ e % n = 1 % n := by
  rw [← ZMod.natCast_eq_natCast_iff']
  push_cast
  exact Iff.rfl

/-- The prime factors of q - 1 and their exponents: q - 1 is u^4·(u-1)·(u+1)·(u^2+1) for u = 3218079743. -/
def qPredFactors : List (Nat × Nat) :=
  [(2, 22), (3, 2), (5, 2), (11, 1), (13, 1), (19, 1), (29, 4), (31, 1), (257, 1), (271, 4), (601, 1), (10037, 1),
    (140909, 1), (409477, 4), (6176510713, 1)]

theorem qPred_eq : q - 1 = (qPredFactors.map fun x => x.1 ^ x.2).prod := by decide +kernel

/-- a^(e's bits i-1 .. 0, after k)  modulo n by square and multiply, for the certificate of the one large factor. -/
def powModLoop (a n e z : Nat) : Nat → Nat
  | 0 => z
  | i + 1 => powModLoop a n e (if e / 2 ^ i % 2 = 1 then z * z % n * a % n else z * z % n) i

theorem powModLoop_modEq (a n e : Nat) : ∀ i k z, z ≡ a ^ k [MOD n] →
    powModLoop a n e z i ≡ a ^ (k * 2 ^ i + e % 2 ^ i) [MOD n] := by
  intro i
  induction i with
  | zero => intro k z h; simpa [powModLoop, Nat.mod_one] using h
  | succ i ih =>
    intro k z h
    have hsplit : e % 2 ^ (i + 1) = 2 ^ i * (e / 2 ^ i % 2) + e % 2 ^ i := by
      rw [Nat.pow_succ, Nat.mod_mul]; ring
    have hsq : z * z % n ≡ a ^ (k + k) [MOD n] := by
      rw [pow_add]; exact (Nat.mod_modEq _ _).trans (h.mul h)
    rw [powModLoop]
    split
    · next hb =>
      have := ih (k + k + 1) (z * z % n * a % n)
        ((Nat.mod_modEq _ _).trans (by rw [pow_succ]; exact hsq.mul_right a))
      rwa [show (k + k + 1) * 2 ^ i + e % 2 ^ i = k * 2 ^ (i + 1) + e % 2 ^ (i + 1) by
        rw [hsplit, hb]; ring] at this
    · next hb =>
      have := ih (k + k) (z * z % n) hsq
      rwa [show (k + k) * 2 ^ i + e % 2 ^ i = k * 2 ^ (i + 1) + e % 2 ^ (i + 1) by
        rw [hsplit, show e / 2 ^ i % 2 = 0 by omega]; ring] at this

theorem pow_mod_eq_powModLoop (a n : Nat) {e i : Nat} (h : e < 2 ^ i) : a ^ e % n = powModLoop a n e 1 i % n := by
  have := powModLoop_modEq a n e i 0 1 (by simp [Nat.ModEq])
  rw [Nat.zero_mul, Nat.zero_add, Nat.mod_eq_of_lt h] at this
  exact this.symm

/-- Lucas's test with the generator 5; the modulus is a variable, so that the kernel never counts down from it. -/
theorem prime_of_certificate (n : Nat) (hn : n = 6176510713) : n.Prime := by
  have pow : ∀ e, e < 2 ^ 33 → ((5 : Nat) : ZMod n) ^ e = 1 → powModLoop 5 n e 1 33 % n = 1 % n := by
    intro e he h
    rwa [zmod_pow_eq_one_iff, pow_mod_eq_powModLoop 5 n he] at h
  apply lucas_primality n ((5 : Nat) : ZMod n)
  · rw [zmod_pow_eq_one_iff, pow_mod_eq_powModLoop 5 n (show n - 1 < 2 ^ 33 by omega), hn]
    decide +kernel
  · intro p hp hd h
    have hd' : p ∣ 2 ^ 3 * 3 ^ 3 * 23 * 29 * 43 * 997 := by rw [hn] at hd; exact hd
    have hmem : p ∈ [2, 3, 23, 29, 43, 997] := by
      have aux : ∀ {r : Nat}, r.Prime → p ∣ r → p = r := fun hr hd => (Nat.prime_dvd_prime_iff_eq hp hr).1 hd
      simp only [hp.dvd_mul] at hd'
      rcases hd' with ((((h | h) | h) | h) | h) | h
      · simp [aux (by norm_num) (hp.dvd_of_dvd_pow h)]
      · simp [aux (by norm_num) (hp.dvd_of_dvd_pow h)]
      all_goals simp [aux (by norm_num) h]
    have hall : ([2, 3, 23, 29, 43, 997].all fun p =>
        powModLoop 5 6176510713 ((6176510713 - 1) / p) 1 33 % 6176510713 != 1) = true := by decide +kernel
    have hp' := List.all_eq_true.1 hall p hmem
    have := pow _ (lt_of_le_of_lt (Nat.div_le_self _ _) (by omega)) h
    rw [hn] at this
    simp [this] at hp'

theorem qPredFactors_prime : ∀ x ∈ qPredFactors, x.1.Prime := by
  simp only [qPredFactors, List.forall_mem_cons]
  refine ⟨?_, ?_, ?_, ?_, ?_, ?_, ?_, ?_, ?_, ?_, ?_, ?_, ?_, ?_, prime_of_certificate _ rfl, by simp⟩
  all_goals norm_num

theorem prime_dvd_qPred {p : Nat} (hp : p.Prime) (h : p ∣ q - 1) : ∃ x ∈ qPredFactors, p = x.1 := by
  rw [qPred_eq, hp.prime.dvd_prod_iff] at h
  obtain ⟨_, ha, hd⟩ := h
  obtain ⟨x, hx, rfl⟩ := List.mem_map.1 ha
  exact ⟨x, hx, (Nat.prime_dvd_prime_iff_eq hp (qPredFactors_prime x hx)).1 (hp.dvd_of_dvd_pow hd)⟩

theorem seven_pow_qPred : reg (modExp (mont 7) (q - 1)) = 1 := by decide +kernel

theorem seven_pow_ne_one : (qPredFactors.all fun x => reg (modExp (mont 7) ((q - 1) / x.1)) != 1) = true := by
  decide +kernel

/-- Lucas's test with the generator 7. -/
theorem q_prime : q.Prime := by
  have h1 : 1 % q = 1 := by decide
  apply lucas_primality q ((7 : Nat) : ZMod q)
  · rw [zmod_pow_eq_one_iff, h1, pow_mod_q, seven_pow_qPred]
  · intro p hp hd h
    rw [zmod_pow_eq_one_iff, h1, pow_mod_q] at h
    obtain ⟨x, hx, rfl⟩ := prime_dvd_qPred hp hd
    have := List.all_eq_true.1 seven_pow_ne_one x hx
    simp [h] at this

/-! ## Euler's criterion, the direction that refutes a square root -/

theorem two_mul_LEGEXP : 2 * LEGEXP = q - 1 := by decide

/-- A non-zero square modulo q has Euler power 1. -/
theorem euler_of_square {v r : Nat} (h : r * r % q = v % q) (h0 : ¬ q ∣ v) : v ^ LEGEXP % q = 1 := by
  have hr : Nat.Coprime r q := by
    rw [Nat.coprime_comm, q_prime.coprime_iff_not_dvd]
    intro hd
    exact h0 ((Nat.ModEq.dvd_iff h dvd_rfl).1 (hd.mul_right r))
  have hpow : v ^ LEGEXP ≡ r ^ (q - 1) [MOD q] := by
    rw [← two_mul_LEGEXP, pow_mul, pow_two]
    exact ((show r * r ≡ v [MOD q] from h).pow LEGEXP).symm
  have hf : r ^ (q - 1) ≡ 1 [MOD q] := by
    have := Nat.ModEq.pow_totient hr
    rwa [Nat.totient_prime q_prime] at this
  have h1 : 1 % q = 1 := by decide
  exact (show v ^ LEGEXP % q = 1 % q from hpow.trans hf).trans h1

end Sys2Proof.Machine
end

