-- ==== Sys2Proof/Tests/Slice0.lean ====
section
/-! SUPPORT. Tests on words and vectors of the spec (95_test_vectors.md unless said otherwise), and a witness for the
hypotheses of every statement that has some. -/

namespace Sys2Proof.Tests
open Sys2Proof Sys2Proof.Machine Sys2Proof.Config

/-! ## Helpers -/

/-- The reset state with the named registers at the named values. -/
def withRegs (fs : List (Nat × Nat)) : State :=
  { State.reset with f := fs.foldl (fun f x => f.setIfInBounds x.1 (elemOf x.2)) State.reset.f }

/-- `s` with `v` in L.DIN. -/
def withLatchedDin (s : State) (v : Nat) : State := { s with ldin := elemOf v }

/-- `s` with `v` in DIN. -/
def withDin (s : State) (v : Nat) : State := { s with din := limbsOfElem (elemOf v) }

/-- `s` with the arrivals `l` to come. -/
def arriving (s : State) (l : List Arrival) : State := { s with agenda := l }

/-- `s` with the word `w` in flight. -/
def inFlight (s : State) (w : Word) : State := { s with busy := true, done := false, lcmd := w }

/-- A field of the next state, where there is one. -/
def after {α : Type} (get : State → α) : Host.Outcome State Fault Refusal → Option α
  | .next t => some (get t)
  | .fault _ => none
  | .refused _ => none

/-- Register `r` of the next state. -/
def regAfter (r : Reg) (o : Host.Outcome State Fault Refusal) : Option Nat := after (fun t => t.reg r) o

/-- STATUS in the next state. -/
def statusAfter (o : Host.Outcome State Fault Refusal) : Option Word := after State.statusWord o

/-- The stored values the vectors name (95_test_vectors.md, constants). -/
def mont2 : Nat := 0x0369a8d22baf68a10846183bc88e6c1050a5ed7e029e3c2dfbb0883bf0ffffec
def mont3 : Nat := 0x051e7d3b41871cf18c692459acd5a21878f8e43d03ed5a44f988cc59e97fffe2
def mont4 : Nat := 0x06d351a4575ed142108c3077911cd820a14bdafc053c785bf7611077e1ffffd8
def mont5 : Nat := 0x0888260d6d36859294af3c9575640e28c99ed1bb068b9672f5395495da7fffce
def mont6 : Nat := 0x0a3cfa76830e39e318d248b359ab4430f1f1c87a07dab489f31198b3d2ffffc4
def mont7 : Nat := 0x0bf1cedf98e5ee339cf554d13df27a391a44bf390929d2a0f0e9dcd1cb7fffba
def mont15 : Nat := 0x002a8765fd05ef8c981136f69099afe19417f4442d5ddff4c5db37c48ebfff69
def mont49 : Nat := 0x0752e7d64e709fe7d8bfd55b42e9e7c55d93b7c88d56183a48f2b7c58e3ffe13
def montHalf : Nat := 0x00da6a348aebda284211860ef2239b0414297b5f80a78f0b7eec220efc3ffffb
def montThird : Nat := 0x00919c230747e6c581610409f6c267580d70fcea55c50a07a9f2c15f52d55552

/-! ## Decoding: words written out from R59's fields and R64's OPC column -/

/-- 95 2.1. -/
theorem test_decode_nop : decode 0x0000000000000000#64 = .ok .nop := by decide
/-- 95 3.1. -/
theorem test_decode_ld : decode 0x000000000000ff01#64 = .ok (.ld 15) := by decide
/-- 95 2.1. -/
theorem test_decode_ldr : decode 0x0000000000000202#64 = .ok (.ldr 2) := by decide
/-- 95 2.1. -/
theorem test_decode_ldu64 : decode 0x0000000000000103#64 = .ok (.ldu64 1) := by decide
/-- 95 4.3. -/
theorem test_decode_st : decode 0x0000000000006004#64 = .ok (.st 6) := by decide
/-- 95 2.1. -/
theorem test_decode_str : decode 0x0000000000001005#64 = .ok (.str 1) := by decide
/-- 95 2.1. -/
theorem test_decode_zero : decode 0x0000000000000306#64 = .ok (.zero 3) := by decide
/-- 95 2.1. -/
theorem test_decode_one : decode 0x0000000000000407#64 = .ok (.one 4) := by decide
/-- 95 2.1. -/
theorem test_decode_mov : decode 0x0000000000001208#64 = .ok (.mov 2 1) := by decide
/-- 95 3.1: IMM is unused. -/
theorem test_decode_add : decode 0x0000dead00021310#64 = .ok (.add 3 1 2) := by decide
/-- 95 3.1: RS2 is unused. -/
theorem test_decode_dbl : decode 0x00000000000f1211#64 = .ok (.dbl 2 1) := by decide
/-- 95 2.2. -/
theorem test_decode_sub : decode 0x0000000000021312#64 = .ok (.sub 3 1 2) := by decide
/-- 95 2.2. -/
theorem test_decode_neg : decode 0x0000000000001213#64 = .ok (.neg 2 1) := by decide
/-- 95 2.2. -/
theorem test_decode_halve : decode 0x0000000000001214#64 = .ok (.halve 2 1) := by decide
/-- 95 4.3. -/
theorem test_decode_mul : decode 0x0000000000037918#64 = .ok (.mul 9 7 3) := by decide
/-- 95 1.2 S-3. -/
theorem test_decode_sqr : decode 0x0000000000002319#64 = .ok (.sqr 3 2) := by decide
/-- 95 2.3. -/
theorem test_decode_tomont : decode 0x000000000000121a#64 = .ok (.tomont 2 1) := by decide
/-- 95 2.3. -/
theorem test_decode_frommont : decode 0x000000000000121b#64 = .ok (.frommont 2 1) := by decide
/-- 95 3.1. -/
theorem test_decode_mulc : decode 0xffffffff0000121c#64 = .ok (.mulc 2 1 0xFFFFFFFF#32) := by decide
/-- 95 2.4. -/
theorem test_decode_exp : decode 0x0000000000001220#64 = .ok (.exp 2 1) := by decide
/-- 95 2.4. -/
theorem test_decode_leg : decode 0x0000000000001021#64 = .ok (.leg 1) := by decide
/-- 95 2.5. -/
theorem test_decode_inv : decode 0x0000000000001228#64 = .ok (.inv 2 1) := by decide
/-- 95 2.5. -/
theorem test_decode_div : decode 0x0000000000021329#64 = .ok (.div 3 1 2) := by decide
/-- 95 3.1. -/
theorem test_decode_binv : decode 0x000000030000152a#64 = .ok (.binv 5 1 3#32) := by decide
/-- 95 2.6. -/
theorem test_decode_sqrt : decode 0x0000000000001230#64 = .ok (.sqrt 2 1) := by decide
/-- 95 3.1: RD is 0. -/
theorem test_decode_cmp : decode 0x0000000000098038#64 = .ok (.cmp 8 9) := by decide

/-- 95 3.1: the first gap of the map, and RSV ≠ 0 at both ends of the field. -/
theorem test_decode_rejects :
    decode 0x0000000000000009#64 = .error .unknownOpcode ∧ decode 0x00000000000000FF#64 = .error .unknownOpcode ∧
    decode 0x0000000000100000#64 = .error .reservedFieldSet ∧
    decode 0x00000000FFF00010#64 = .error .reservedFieldSet := by decide

/-- 95 3.1: bit 31 of IMM is not RSV. -/
theorem test_decode_imm_top : decode 0x8000000000000010#64 = .ok (.add 0 0 0) := by decide

/-- R67, R69: the words of two commands. -/
theorem test_encode : encode (.mulc 4 3 7#32) = 0x000000070000341C#64 ∧ encode (.cmp 8 9) = 0x98038#64 := by decide

/-- Assembler lines of 95 2.1, 2.3, 3.1 and 4.1, and lines that R67 does not allow. -/
theorem test_asm :
    asmText (.mulc 2 1 5#32) = "MULC f2, f1, #5" ∧
    assemble "NOP" = some 0x0#64 ∧ assemble "ADD f3, f1, f2" = some 0x21310#64 ∧ assemble "LD f15" = some 0xF01#64 ∧
    assemble "MULC f2, f1, #4294967295" = some 0xFFFFFFFF0000121C#64 ∧
    assemble "MULC f2, f1, #0xFFFFFFFF" = some 0xFFFFFFFF0000121C#64 ∧
    assemble "MULC f2, f1, #4294967296" = none ∧ assemble "LD f16" = none ∧ assemble "ADD f1, f2" = none := by
  decide

/-! ## WellFormed (R105, 95 2.5) -/

theorem test_wellFormed_refuses_n : WellFormed (.binv 0 0 17#32) = false := by decide
theorem test_wellFormed_refuses_source : WellFormed (.binv 0 1 16#32) = false := by decide
theorem test_wellFormed_refuses_destination : WellFormed (.binv 1 0 16#32) = false := by decide
theorem test_wellFormed_accepts : WellFormed (.binv 0 0 16#32) = true ∧ WellFormed (.binv 15 15 1#32) = true ∧
    WellFormed (.binv 15 15 0#32) = true := by decide

/-! ## Data movement (95 2.1) -/

theorem test_nop : after State.f (exec .nop (withRegs [(1, mont5)])) = some (withRegs [(1, mont5)]).f := by decide
theorem test_ld : regAfter 1 (exec (.ld 1) (withLatchedDin State.reset (q - 1))) = some (q - 1) := by decide
theorem test_ldr_above_q : regAfter 2 (exec (.ldr 2) (withLatchedDin State.reset (q + 5))) = some mont5 := by decide
theorem test_ldr_top : regAfter 2 (exec (.ldr 2) (withLatchedDin State.reset (2 ^ 256 - 1))) =
    some 0x06684fe6f1fba60a137629748d694c7bc2ec22ce54520e2858c9bb10587c885b := by decide
theorem test_ldu64_ignores_upper : regAfter 1 (exec (.ldu64 1) (withLatchedDin State.reset (2 ^ 256 - 2 ^ 64 + 5))) =
    some mont5 := by decide
theorem test_ldu64_top : regAfter 1 (exec (.ldu64 1) (withLatchedDin State.reset (2 ^ 64 - 1))) =
    some 0x0677504bf035b43d26a53ec993c2975fbba9926a0d15773fd0d974d723e184c1 := by decide
theorem test_st : after State.dout (exec (.st 1) (withRegs [(1, mont5)])) =
    some ⟨0xf5395495da7fffce#64, 0xc99ed1bb068b9672#64, 0x94af3c9575640e28#64, 0x0888260d6d368592#64⟩ := by decide
theorem test_str : after State.dout (exec (.str 1) (withRegs [(1, mont5)])) = some ⟨5#64, 0#64, 0#64, 0#64⟩ := by decide
theorem test_zero : regAfter 3 (exec (.zero 3) (withRegs [(3, mont5)])) = some 0 := by decide
theorem test_one : regAfter 4 (exec (.one 4) State.reset) =
    some 0x01b4d46915d7b45084230c1de44736082852f6bf014f1e16fdd8441df87ffff6 := by decide
theorem test_mov : (exec (.mov 2 1) (withRegs [(1, mont5)]) |> fun o => (regAfter 2 o, regAfter 1 o)) =
    (some mont5, some mont5) := by decide

/-! ## Addition and subtraction (95 2.2) -/

theorem test_add : regAfter 3 (exec (.add 3 1 2) (withRegs [(1, mont2), (2, mont3)])) = some mont5 := by decide
theorem test_add_reduces : regAfter 3 (exec (.add 3 1 2) (withRegs [(1, q - 1), (2, q - 1)])) = some (q - 2) := by decide
theorem test_dbl : regAfter 2 (exec (.dbl 2 1) (withRegs [(1, q - 1)])) = some (q - 2) := by decide
theorem test_sub : regAfter 3 (exec (.sub 3 1 2) (withRegs [(1, mont2), (2, mont3)])) =
    some 0x17b9165934c5ecdaa1d972abeb4b4490a0718a2de4f5c54d1bf881df0840000b := by decide
theorem test_sub_borrow : regAfter 3 (exec (.sub 3 1 2) (withRegs [(2, 1)])) = some (q - 1) := by decide
theorem test_neg : regAfter 2 (exec (.neg 2 1) (withRegs [(1, 1)])) = some (q - 1) := by decide
theorem test_neg_zero : regAfter 2 (exec (.neg 2 1) (withRegs [(2, mont5)])) = some 0 := by decide
theorem test_halve_odd : regAfter 2 (exec (.halve 2 1) (withRegs [(1, 1)])) = some ((q + 1) / 2) := by decide
theorem test_halve_even : regAfter 2 (exec (.halve 2 1) (withRegs [(1, 2)])) = some 1 := by decide

/-! ## The multiplier (95 2.3) -/

theorem test_mul : regAfter 3 (exec (.mul 3 1 2) (withRegs [(1, mont2), (2, mont3)])) = some mont6 := by decide
theorem test_mul_plain_ones : regAfter 3 (exec (.mul 3 1 2) (withRegs [(1, 1), (2, 1)])) =
    some 0x045179d8058c44da27d10e7e0826b89f507bab354d12c2fdff600e8f38305951 := by decide
theorem test_sqr : regAfter 2 (exec (.sqr 2 1) (withRegs [(1, mont7)])) = some mont49 := by decide
theorem test_tomont : regAfter 2 (exec (.tomont 2 1) (withRegs [(1, 5)])) = some mont5 := by decide
theorem test_frommont : regAfter 2 (exec (.frommont 2 1) (withRegs [(1, mont5)])) = some 5 := by decide
theorem test_mulc : regAfter 2 (exec (.mulc 2 1 5#32) (withRegs [(1, mont7)])) =
    some 0x08dd34d9674264abc4d1aa8296976debf1ceba436147565c80efc41ef7fffea0 := by decide
theorem test_mulc_zero_extends : regAfter 2 (exec (.mulc 2 1 0xFFFFFFFF#32) (withRegs [(1, mont7)])) =
    some 0x0ce5a7d64fcd50001d3c9a8375db0a15fc84748c421f7fbb865f7a378b80bc05 := by decide
/-- The loop of R86 and the formula of R87 on the largest arguments. -/
theorem test_cios_loop : ciosLoop (R - 1) (q - 1) = cios (R - 1) (q - 1) ∧ ciosLoop (R - 1) (R - 1) = cios (R - 1) (R - 1) := by
  decide +kernel

/-! ## Exponentiation (95 2.4) -/

theorem test_exp : regAfter 2 (exec (.exp 2 1) (withLatchedDin (withRegs [(1, mont2)]) 10)) =
    some 0x121f48bb8cf2729a751ec9f5f9ef900bf7a8bd18122bf560859be0adccffd7bc := by decide +kernel
theorem test_exp_zero_to_zero : regAfter 2 (exec (.exp 2 1) State.reset) = some ONE := by decide +kernel
theorem test_leg_square : after State.result (exec (.leg 1) (withRegs [(1, mont5)])) = some 1#64 := by decide +kernel
theorem test_leg_nonsquare : after State.result (exec (.leg 1) (withRegs [(1, mont7)])) =
    some 0xFFFFFFFFFFFFFFFF#64 := by decide +kernel

/-! ## Inversion (95 2.5) -/

theorem test_inv : regAfter 2 (exec (.inv 2 1) (withRegs [(1, q - 1)])) =
    some 0x1150c67242ca46d08e6349375de1f814dd85675f90a3b724c32ec6ceafc377b0 := by decide +kernel
theorem test_inv_zero : regAfter 2 (exec (.inv 2 1) (withRegs [(2, mont5)])) = some 0 := by decide +kernel
theorem test_div : regAfter 3 (exec (.div 3 1 2) (withRegs [(1, mont6), (2, mont3)])) = some mont2 := by decide +kernel
theorem test_div_by_zero : regAfter 3 (exec (.div 3 1 2) (withRegs [(1, mont6)])) = some 0 := by decide +kernel
theorem test_binv_in_place :
    (exec (.binv 1 1 3#32) (withRegs [(1, mont2), (3, mont3)]) |> fun o => (regAfter 1 o, regAfter 2 o, regAfter 3 o)) =
    (some montHalf, some 0, some montThird) := by decide +kernel
theorem test_binv_none : after State.f (exec (.binv 5 1 0#32) (withRegs [(1, mont5)])) =
    some (withRegs [(1, mont5)]).f := by decide +kernel

/-! ## Square root and comparison (95 2.6, 2.7) -/

theorem test_sqrt : (exec (.sqrt 2 1) (withRegs [(1, mont5)]) |> fun o => (regAfter 2 o, after State.absent o)) =
    (some 0x0fd54e0ce4581c86c878dff5d1479c534d16d6045eb85fcd9bdce392a2c35086, some false) := by decide +kernel
theorem test_sqrt_absent :
    (exec (.sqrt 2 1) (withRegs [(1, mont7), (2, mont5)]) |> fun o => (regAfter 2 o, after State.absent o)) =
    (some mont5, some true) := by decide +kernel
/-- The stored value of ONE is above that of Mont(15), the regular value below. -/
theorem test_cmp_regular : after State.result (exec (.cmp 1 2) (withRegs [(1, ONE), (2, mont15)])) =
    some 0xFFFFFFFFFFFFFFFF#64 := by decide
theorem test_cmp_same : after State.result (exec (.cmp 1 1) (withRegs [(1, mont7)])) = some 0#64 := by decide

/-! ## Issue, refusal, STATUS and IRQ (95 3.2, 3.4) -/

/-- E-1, E-4, E-5, E-6. -/
theorem test_refusals :
    (State.reset.issue 0xFF#64).statusWord = 0x106#64 ∧ (State.reset.issue 0x000000110010002A#64).statusWord = 0x106#64 ∧
    ((withDin State.reset q).issue 0x000000100000102A#64).statusWord = 0x206#64 ∧
    ((withDin State.reset q).issue 0x401#64).statusWord = 0x306#64 := by decide
/-- E-7: q - 1 is accepted. -/
theorem test_ld_accepted : ((withDin State.reset (q - 1)).issue 0x401#64).statusWord = 0x1#64 := by decide
/-- E-8: ERRCODE keeps the first code. -/
theorem test_first_code_kept : (((withDin State.reset q).issue 0x401#64).issue 0xFF#64).statusWord = 0x306#64 := by decide
/-- E-9, E-10, E-12. -/
theorem test_write_one_clears :
    (((withDin State.reset q).issue 0x401#64).writeStatus 0x4#64).statusWord = 0x002#64 ∧
    (((withDin State.reset q).issue 0x401#64).writeStatus 0x2#64).statusWord = 0x304#64 ∧
    (((withDin State.reset q).issue 0x401#64).writeStatus 0xFFFFFFFFFFFFFFF9#64).statusWord = 0x306#64 := by decide
/-- E-13: a CMD write while BUSY = 1. -/
theorem test_busy_write :
    (((withDin State.reset 2).issue 0x103#64).issue 0x0#64).statusWord = 0x405#64 ∧
    (((withDin State.reset 2).issue 0x103#64).issue 0x0#64).lcmd = 0x103#64 := by decide
/-- Q-4, Q-5, Q-6, Q-7. -/
theorem test_irq :
    ((State.reset.writeCtrl 1#64).issue 0xFF#64).irq = true ∧
    (((State.reset.writeCtrl 1#64).issue 0xFF#64).writeStatus 0x4#64).irq = true ∧
    (((State.reset.writeCtrl 1#64).issue 0xFF#64).writeCtrl 0#64).irq = false ∧
    (State.reset.writeCtrl 0xFFFFFFFFFFFFFFFF#64).readWindow 0x10#8 = 1#64 := by decide
/-- X-4: Q0 is read-only. -/
theorem test_modulus_read_only : (State.reset.writeWindow 0x80#8 5#64).readWindow 0x80#8 = 0x19d0c5fd00c00001#64 := by
  decide
/-- A step at a WAIT completes the NOP in flight, and does not pass the WAIT yet. -/
theorem test_step_completes : (step (arriving (inFlight State.reset 0#64) [.wait]) |> fun o =>
    (statusAfter o, after State.agenda o)) = (some 0x2#64, some [.wait]) := by decide
/-- X-2: a reset abandons the command in flight. -/
theorem test_reset_abandons : (step (arriving (inFlight (withRegs [(2, mont5)]) 0x1228#64) [.reset]) |> fun o =>
    (statusAfter o, regAfter 2 o)) = (some 0#64, some 0) := by decide
/-- R42. -/
theorem test_narrow_access_refused : step (arriving State.reset [.read 4 0x08#8]) =
    .refused (.undefinedHostAccess 4 0x08#8) := rfl

/-! ## Witnesses: concrete states and operands that meet the hypotheses of each statement, a clause at a time, at the ends
of its range -/

/-- No arrival but a write of `w` to CMD. -/
def writing (s : State) (off : BitVec 8) (w : Word) : State := arriving s [.write 8 off w]

/-- A legal state with SQRT f2, f1 in flight on a non-square and host accesses to come. -/
def busyLegal : State := arriving (inFlight (withRegs [(1, mont7)]) 0x1230#64) [.write 8 0x20#8 5#64, .wait, .read 8 0x08#8]

theorem busyLegal_legal : Legal busyLegal where
  canonical := by unfold Canonical; decide
  status := by unfold StatusLegal; decide
  latch := fun _ => ⟨.sqrt 2 1, by decide, by decide, by decide⟩
  result := .inl rfl
  dout := by unfold DoutCanonical; decide
  sqrtG := ⟨by decide, by decide +kernel⟩

/-- Mont(7) is no square modulo q (95 2.4). -/
theorem mont7_not_square : ¬ IsSquareModQ mont7 := by
  rintro ⟨r, hr⟩
  have h := euler_of_square hr (by decide)
  rw [pow_mod_q] at h
  revert h
  decide +kernel

/-- Mont(4) = 4·2^256 mod q is the square of 2·2^128. -/
theorem mont4_square : IsSquareModQ mont4 := ⟨2 * 2 ^ 128, by decide⟩

/-! ### Encoding -/

theorem witness_DecodedWordReencodesToItsUsedBits : decode 0x0000DEAD00021310#64 = .ok (.add 3 1 2) := by decide

theorem witness_UnusedFieldsAreIgnored :
    (decode 0x0000000000021310#64 = .ok (.add 3 1 2) ∧
      0x0000DEAD00021310#64 &&& usedMask (.add 3 1 2) = 0x0000000000021310#64 &&& usedMask (.add 3 1 2) ∧
      BitVec.extractLsb' 20 12 0x0000DEAD00021310#64 = 0#12) ∧
    BitVec.extractLsb' 20 12 0x0000000000100000#64 ≠ 0#12 ∧ BitVec.extractLsb' 20 12 0x0000000080000000#64 ≠ 0#12 := by
  decide

theorem witness_OpcodeMapSelectsTheCommand : BitVec.extractLsb' 20 12 0xFFFFFFFF0000F21C#64 = 0#12 ∧
    (2 : Reg).val = (BitVec.extractLsb' 8 4 0xFFFFFFFF0000F21C#64).toNat ∧
    (15 : Reg).val = (BitVec.extractLsb' 12 4 0xFFFFFFFF0000F21C#64).toNat ∧
    (0 : Reg).val = (BitVec.extractLsb' 16 4 0xFFFFFFFF0000F21C#64).toNat ∧
    0xFFFFFFFF#32 = BitVec.extractLsb' 32 32 0xFFFFFFFF0000F21C#64 ∧
    BitVec.extractLsb' 0 8 0xFFFFFFFF0000F21C#64 = 0x1C#8 := by decide

theorem witness_DecoderSelectsTheTableRow : decode 0x000000030000152A#64 = .ok (.binv 5 1 3#32) := by decide

/-! ### Issue and the host's accesses -/

/-- One state and word per outcome of the issue rules; n = 16 and DIN = q - 1 pass, n = 17, RS1 + n = 17, RD + n = 17 and
DIN = q do not. -/
theorem witness_IssueFollowsTheRuleOrder :
    (writing State.reset 0x00#8 0#64).agenda = .write 8 0x00#8 0#64 :: [] ∧
    statusAfter (step (writing (inFlight State.reset 0#64) 0x00#8 0xFF#64)) = some 0x405#64 ∧
    statusAfter (step (writing State.reset 0x00#8 0x15#64)) = some 0x106#64 ∧
    statusAfter (step (writing State.reset 0x00#8 0x000000110000002A#64)) = some 0x206#64 ∧
    statusAfter (step (writing State.reset 0x00#8 0x000000100000102A#64)) = some 0x206#64 ∧
    statusAfter (step (writing State.reset 0x00#8 0x000000100000012A#64)) = some 0x206#64 ∧
    statusAfter (step (writing State.reset 0x00#8 0x000000100000002A#64)) = some 0x001#64 ∧
    statusAfter (step (writing (withDin State.reset q) 0x00#8 0x401#64)) = some 0x306#64 ∧
    statusAfter (step (writing (withDin State.reset (q - 1)) 0x00#8 0x401#64)) = some 0x001#64 := by decide

theorem witness_NothingDisturbsTheCommandInFlight :
    (writing busyLegal 0x00#8 0#64).busy = true ∧ hostAccessNext (writing busyLegal 0x00#8 0#64) = true ∧
    statusAfter (step (writing busyLegal 0x00#8 0#64)) = some 0x405#64 := by decide

/-- A host access with BUSY = 1, and a passed WAIT with BUSY = 0. -/
theorem witness_ResultsChangeOnlyAtCompletion :
    (hostAccessNext busyLegal = true ∧ statusAfter (step busyLegal) = some 0x1#64) ∧
    ((arriving State.reset [.wait]).busy = false ∧ statusAfter (step (arriving State.reset [.wait])) = some 0#64 ∧
      (arriving State.reset [.wait]).agenda.head? ≠ some .reset) := by decide

theorem witness_StatusReadsItsFieldsAndClearsByOne :
    (writing busyLegal 0x08#8 6#64).agenda = .write 8 0x08#8 6#64 :: [] := rfl

theorem witness_CtrlHoldsOnlyTheInterruptEnable :
    (writing busyLegal 0x10#8 3#64).agenda = .write 8 0x10#8 3#64 :: [] ∧ busyLegal.ie = false := by decide

/-- The first and the last DIN register. -/
theorem witness_DinReadsBackTheLastWrite :
    (writing busyLegal 0x20#8 5#64).agenda = .write 8 (0x20#8 + 8#8 * BitVec.ofNat 8 (0 : Fin 4).val) 5#64 :: [] ∧
    (writing busyLegal 0x38#8 5#64).agenda = .write 8 (0x20#8 + 8#8 * BitVec.ofNat 8 (3 : Fin 4).val) 5#64 :: [] := by
  decide

/-- The first unmapped offset, the one before Q0, the one after Q3 and the last; the first and last read-only register. -/
theorem witness_UnmappedAndReadOnlyOffsets :
    (∀ off ∈ [0x60#8, 0x78#8, 0xA0#8, 0xF8#8], off.toNat % 8 = 0 ∧ off ∉ mappedOffsets ∧
      (arriving busyLegal [.read 8 off]).agenda = .read 8 off :: [] ∧
      (writing busyLegal off 5#64).agenda = .write 8 off 5#64 :: []) ∧
    (writing busyLegal 0x18#8 5#64).agenda = .write 8 0x18#8 5#64 :: [] ∧
    (writing busyLegal 0x98#8 5#64).agenda = .write 8 0x98#8 5#64 :: [] := by decide

theorem witness_WindowReadsReturnTheRegisters :
    ∀ off ∈ [0x00#8, 0x98#8, 0xF8#8], off.toNat % 8 = 0 ∧
      (arriving busyLegal [.read 8 off]).agenda = .read 8 off :: [] := by decide

/-- A wrong width at an aligned offset, a wrong offset of the right width, at both ends of the window. -/
theorem witness_UndefinedAccessIsRefused :
    ((4 ≠ 8 ∨ (0x00#8).toNat % 8 ≠ 0) ∧ (arriving busyLegal [.read 4 0x00#8]).agenda = .read 4 0x00#8 :: []) ∧
    ((8 ≠ 8 ∨ (0xFF#8).toNat % 8 ≠ 0) ∧ (arriving busyLegal [.write 8 0xFF#8 5#64]).agenda = .write 8 0xFF#8 5#64 :: []) := by
  decide

theorem witness_InterruptIsTheLevelOfDoneOrErr :
    (6#64).getLsbD 1 = true ∧ (6#64).getLsbD 2 = true ∧ (2#64).getLsbD 0 = false ∧
    State.reset.busy = false ∧ (State.reset.issue 0#64).busy = true := by decide

theorem witness_RomConstantsMeetTheirDefinitions : 0 < 1 ∧ 1 < 7 ∧ 0 < 6 ∧ 6 < 7 := by decide

theorem witness_ResetAbandonsTheCommandInFlight :
    (arriving busyLegal [.reset, .wait]).agenda = .reset :: [.wait] ∧ busyLegal.busy = true := by decide

/-! ### The step -/

theorem witness_StepRunsTheLatchedCommand :
    busyLegal.busy = true ∧ decode busyLegal.lcmd = .ok (.sqrt 2 1) ∧
    (arriving busyLegal []).agenda = [] ∧ (arriving busyLegal [.wait]).agenda = .wait :: [] ∧
    (arriving busyLegal [.engine, .wait]).agenda = .engine :: [.wait] := by decide

theorem witness_PlacedWordRunsNext : decodeTableWord 64 0x000000030000152A = some (.binv 5 1 3#32) ∧
    decodeTableWord 32 0x00021310 = some (.add 3 1 2) := by decide

theorem witness_IdleEngineHasNoStep :
    State.reset.busy = false ∧ State.reset.agenda = [] ∧ (arriving State.reset [.wait]).agenda = .wait :: [] ∧
    (arriving State.reset [.engine]).agenda = .engine :: [] := by decide

/-! ### The commands -/

/-- DIN at q is refused, at q - 1 accepted. -/
theorem witness_LoadRawStoresCanonicalDin :
    ((withDin State.reset q).busy = false ∧ (limbsValue (withDin State.reset q).din).toNat ≥ q ∧
      (withDin State.reset q).err = false) ∧
    ((withDin State.reset (q - 1)).busy = false ∧ (limbsValue (withDin State.reset (q - 1)).din).toNat < q) := by decide

/-- Operands at both ends, 0 and q - 1, and the same register twice. -/
theorem witness_operands_below_q :
    (withRegs [(1, 0), (2, q - 1)]).reg 1 < q ∧ (withRegs [(1, 0), (2, q - 1)]).reg 2 < q := by decide
theorem witness_StoreRawWritesDout : (withRegs [(1, q - 1)]).reg 1 < q := by decide
theorem witness_StoreRegularWritesTheRegularValue : (withRegs [(1, q - 1)]).reg 1 < q := by decide
theorem witness_AddAndDoubleAreModular :
    (withRegs [(1, q - 1), (2, 1)]).reg 1 < q ∧ (withRegs [(1, q - 1), (2, 1)]).reg 2 < q := by decide
theorem witness_SubtractAndNegateAreModular :
    (withRegs [(2, q - 1)]).reg 1 < q ∧ (withRegs [(2, q - 1)]).reg 2 < q := by decide
theorem witness_HalveHalvesModuloQ : (withRegs [(1, q - 1)]).reg 1 < q ∧ (withRegs [(1, 1)]).reg 1 < q := by decide
theorem witness_MultiplyIsMontgomeryMultiplication :
    (withRegs [(1, q - 1), (2, ONE)]).reg 1 < q ∧ (withRegs [(1, q - 1), (2, ONE)]).reg 2 < q ∧ q - 1 < q := by decide
theorem witness_ConversionsMultiplyByTheRadix : (withRegs [(1, q - 1)]).reg 1 < q ∧ R - 1 < R ∧ q - 1 < q := by decide
theorem witness_MultiplyByConstantIsModular : (withRegs [(1, q - 1)]).reg 1 < q := by decide
/-- The largest arguments, and the largest under the bound of R88. -/
theorem witness_CiosLoopReturnsTheExactQuotient :
    (R - 1 < R ∧ q - 1 < R ∧ (R - 1) * (q - 1) < q * R) ∧ (R - 1 < R ∧ ¬ (R - 1) * (R - 1) < q * R) := by decide
/-- Exponent 0 and the largest. -/
theorem witness_ExponentiationRaisesToTheLatchedPower :
    ((withLatchedDin (withRegs [(1, q - 1)]) 0).reg 1 < q ∧ (withLatchedDin (withRegs [(1, q - 1)]) 0).ldin.toNat = 0) ∧
    ((withLatchedDin (withRegs [(1, q - 1)]) (R - 1)).reg 1 < q ∧
      (withLatchedDin (withRegs [(1, q - 1)]) (R - 1)).ldin.toNat = R - 1) := by decide

theorem reg_mont7 : (withRegs [(1, mont7)]).reg 1 = mont7 := by decide
theorem reg_mont4 : (withRegs [(1, mont4)]).reg 1 = mont4 := by decide

/-- Zero, a non-zero square and a non-square. -/
theorem witness_LegendreSymbolOfTheStoredValue :
    (State.reset.reg 1 < q ∧ State.reset.reg 1 = 0) ∧
    ((withRegs [(1, mont4)]).reg 1 < q ∧ (withRegs [(1, mont4)]).reg 1 ≠ 0 ∧ IsSquareModQ ((withRegs [(1, mont4)]).reg 1)) ∧
    ((withRegs [(1, mont7)]).reg 1 < q ∧ (withRegs [(1, mont7)]).reg 1 ≠ 0 ∧
      ¬ IsSquareModQ ((withRegs [(1, mont7)]).reg 1)) :=
  ⟨by decide, ⟨by decide, by decide, by rw [reg_mont4]; exact mont4_square⟩,
    ⟨by decide, by decide, by rw [reg_mont7]; exact mont7_not_square⟩⟩

theorem witness_InverseIsTheMontgomeryInverse :
    (State.reset.reg 1 < q ∧ State.reset.reg 1 = 0) ∧
    ((withRegs [(1, q - 1)]).reg 1 < q ∧ (withRegs [(1, q - 1)]).reg 1 ≠ 0) := by decide
theorem witness_InverseEndsWithinItsPassBound : (0 < 1 ∧ 1 < q) ∧ (0 < q - 1 ∧ q - 1 < q) := by decide
/-- Both sides of the equivalence hold at q. -/
theorem witness_InverseIsStuckExactlyOnMultiplesOfQ :
    after State.f (exec (.inv 2 1) (withRegs [(1, q)])) = none ∧
    (withRegs [(1, q)]).reg 1 ≠ 0 ∧ q ∣ (withRegs [(1, q)]).reg 1 := by decide +kernel
theorem witness_DivideMultipliesByTheInverse :
    ((withRegs [(1, q - 1)]).reg 1 < q ∧ (withRegs [(1, q - 1)]).reg 2 < q ∧ (withRegs [(1, q - 1)]).reg 2 = 0) ∧
    ((withRegs [(1, 1), (2, q - 1)]).reg 1 < q ∧ (withRegs [(1, 1), (2, q - 1)]).reg 2 < q ∧
      (withRegs [(1, 1), (2, q - 1)]).reg 2 ≠ 0) := by decide
/-- All sixteen registers in place, and no register at all. -/
theorem witness_BatchInverseIsElementwise :
    ((16#32).toNat ≤ 16 ∧ (0 : Reg).val + (16#32).toNat ≤ 16 ∧
      ∀ j : Reg, (0 : Reg).val ≤ j.val → j.val < (0 : Reg).val + (16#32).toNat → busyLegal.reg j < q) ∧
    ((0#32).toNat ≤ 16 ∧ (15 : Reg).val + (0#32).toNat ≤ 16 ∧
      ∀ j : Reg, (15 : Reg).val ≤ j.val → j.val < (15 : Reg).val + (0#32).toNat → busyLegal.reg j < q) := by decide
/-- Each of the three conditions alone at its least value, and none of them at the largest ranges. -/
theorem witness_BatchRangesAreCheckedAtIssue :
    State.reset.busy = false ∧ (17#32).toNat > 16 ∧
    ((1 : Reg).val + (16#32).toNat > 16 ∧ (15 : Reg).val + (2#32).toNat > 16) ∧
    ¬ ((16#32).toNat > 16 ∨ (0 : Reg).val + (16#32).toNat > 16 ∨ (0 : Reg).val + (16#32).toNat > 16) ∧
    ¬ ((0#32).toNat > 16 ∨ (15 : Reg).val + (0#32).toNat > 16 ∨ (15 : Reg).val + (0#32).toNat > 16) := by decide
/-- n = 17, RS1 + n = 17 and RD + n = 17; an OPC outside the map and RSV = 1; an empty agenda, a WAIT and an engine mark. -/
theorem witness_LatchOfNoCommandOrLongRangeStopsByName :
    ((17#32).toNat > 16 ∧ (1 : Reg).val + (16#32).toNat > 16 ∧ (15 : Reg).val + (2#32).toNat > 16) ∧
    ((inFlight State.reset 0xFF#64).busy = true ∧ (inFlight State.reset 0xFF#64).lcmd.extractLsb' 0 8 ∉ opcodeMap ∧
      (inFlight State.reset 0xFF#64).agenda = []) ∧
    ((arriving (inFlight State.reset 0x100000#64) [.wait]).busy = true ∧
      (arriving (inFlight State.reset 0x100000#64) [.wait]).lcmd.extractLsb' 20 12 ≠ 0#12 ∧
      (arriving (inFlight State.reset 0x100000#64) [.wait]).agenda.head? = some .wait) ∧
    (arriving (inFlight State.reset 0x100000#64) [.engine]).agenda.head? = some .engine := by decide

theorem sqrtG_legal (fs : List (Nat × Nat)) : SqrtGLegal (withRegs fs) := busyLegal_legal.sqrtG

/-- A square, zero and a non-square. -/
theorem witness_SquareRootOrAbsent :
    ((withRegs [(1, mont4)]).reg 1 < q ∧ SqrtGLegal (withRegs [(1, mont4)]) ∧
      IsSquareModQ ((withRegs [(1, mont4)]).reg 1)) ∧
    (State.reset.reg 1 = 0 ∧ IsSquareModQ (State.reset.reg 1)) ∧
    ((withRegs [(1, mont7)]).reg 1 < q ∧ SqrtGLegal (withRegs [(1, mont7)]) ∧
      ¬ IsSquareModQ ((withRegs [(1, mont7)]).reg 1)) :=
  ⟨⟨by decide, sqrtG_legal _, by rw [reg_mont4]; exact mont4_square⟩, ⟨by decide, ⟨0, by decide⟩⟩,
    ⟨by decide, sqrtG_legal _, by rw [reg_mont7]; exact mont7_not_square⟩⟩

/-- SQRT of Mont(4) and of Mont(7) with the default SQRT_G (95 2.6). -/
theorem sqrtTS_mont4 : sqrtTS sqrtGDefault.toNat mont4 = .root mont2 := by decide +kernel
theorem sqrtTS_mont7 : sqrtTS sqrtGDefault.toNat mont7 = .absent := by decide +kernel

/-- Both commands have a next state, on a square and on a non-square. -/
theorem witness_LegendreAgreesWithSquareRoot :
    ((withRegs [(1, mont4)]).reg 1 < q ∧ (withRegs [(1, mont4)]).reg 1 ≠ 0 ∧ SqrtGLegal (withRegs [(1, mont4)]) ∧
      (∃ t, exec (.leg 1) (withRegs [(1, mont4)]) = .next t) ∧ ∃ u, exec (.sqrt 2 1) (withRegs [(1, mont4)]) = .next u) ∧
    ((withRegs [(1, mont7)]).reg 1 < q ∧ (withRegs [(1, mont7)]).reg 1 ≠ 0 ∧ SqrtGLegal (withRegs [(1, mont7)]) ∧
      (∃ t, exec (.leg 1) (withRegs [(1, mont7)]) = .next t) ∧ ∃ u, exec (.sqrt 2 1) (withRegs [(1, mont7)]) = .next u) := by
  have g (fs) : (withRegs fs).sqrtG = sqrtGDefault := rfl
  refine ⟨⟨by decide, by decide, sqrtG_legal _, ⟨_, by rw [exec_leg, completed_setResult]⟩, ?_⟩,
    ⟨by decide, by decide, sqrtG_legal _, ⟨_, by rw [exec_leg, completed_setResult]⟩, ?_⟩⟩
  · exact ⟨_, by rw [exec_sqrt, reg_mont4, g, sqrtTS_mont4, sqrtOutcome, completed]⟩
  · exact ⟨_, by rw [exec_sqrt, reg_mont7, g, sqrtTS_mont7, sqrtOutcome, completed]⟩

/-- Above, equal and below. -/
theorem witness_CompareOrdersRegularValues :
    ((withRegs [(1, ONE), (2, mont15)]).reg 1 * rInv % q < (withRegs [(1, ONE), (2, mont15)]).reg 2 * rInv % q) ∧
    ((withRegs [(1, mont15)]).reg 1 * rInv % q = (withRegs [(2, mont15)]).reg 2 * rInv % q) ∧
    ((withRegs [(1, ONE)]).reg 2 * rInv % q < (withRegs [(1, ONE)]).reg 1 * rInv % q) ∧
    (withRegs [(1, ONE), (2, mont15)]).reg 1 < q ∧ (withRegs [(1, ONE), (2, mont15)]).reg 2 < q := by decide

/-! ### The whole machine -/

/-- A command that writes none of the indicators, for the three statements about every completion. -/
theorem witness_OnlyNamedCommandsWriteIndicators :
    ∃ t, exec (.add 3 1 2) (withRegs [(1, q - 1)]) = .next t := ⟨_, rfl⟩
theorem witness_OnlyDestinationRegistersChange :
    (∃ t, exec (.one 3) (withRegs [(1, q - 1)]) = .next t) ∧ (2 : Reg).val ∉ destinations (.one 3) :=
  ⟨⟨_, rfl⟩, by decide⟩
/-- Two states that differ in DIN, RESULT and BUSY and agree in what a command reads. -/
theorem witness_ResultIsAFunctionOfLatchRegistersAndRom :
    State.reset.f = (State.reset.latch 0#64).f ∧ State.reset.ldin = (State.reset.latch 0#64).ldin ∧
    State.reset.sqrtG = (State.reset.latch 0#64).sqrtG ∧ ∃ t, exec (.one 3) State.reset = .next t :=
  ⟨by decide, by decide, by decide, _, rfl⟩
theorem witness_DinWritesAfterIssueDoNotMatter :
    (State.reset.busy = false ∧ (State.reset.issue 0x101#64).busy = true) ∧
    ((State.reset.issue 0x101#64).busy = true ∧ (State.reset.issue 0x101#64).agenda = [] ∧
      decode (State.reset.issue 0x101#64).lcmd = .ok (.ld 1)) := by decide
theorem witness_EveryStepKeepsLegalStates : Legal busyLegal ∧ ∃ t, step busyLegal = .next t := ⟨busyLegal_legal, _, rfl⟩
theorem witness_NoAcceptedCommandFaultsOrHangs : Legal busyLegal ∧ agendaDefined busyLegal.agenda = true :=
  ⟨busyLegal_legal, by decide⟩
theorem witness_EveryRunSettles : Legal busyLegal ∧ agendaDefined busyLegal.agenda = true := ⟨busyLegal_legal, by decide⟩

/-! ### The host's notation -/

/-- Each of the five expansions can stand first in the agenda of an idle state; LOADM's value at q - 1. -/
theorem witness_PseudoCommandsRunTheirExpansions :
    State.reset.busy = false ∧
    (arriving State.reset (pseudoSetU64 1 5#64)).agenda = pseudoSetU64 1 5#64 ++ [] ∧
    (arriving State.reset (pseudoSet256 1 (elemOf (R - 1)))).agenda = pseudoSet256 1 (elemOf (R - 1)) ++ [] ∧
    ((elemOf (q - 1)).toNat < q ∧
      (arriving State.reset (pseudoLoadM 1 (elemOf (q - 1)))).agenda = pseudoLoadM 1 (elemOf (q - 1)) ++ []) ∧
    (arriving State.reset (pseudoExpI 2 1 (elemOf (q - 2)))).agenda = pseudoExpI 2 1 (elemOf (q - 2)) ++ [] ∧
    (State.reset.reg 1 < q ∧ State.reset.reg 2 < q ∧
      (arriving State.reset (pseudoEq 1 2)).agenda = pseudoEq 1 2 ++ []) := by decide
theorem witness_ByteEncodingRoundTrips : (0 < 32 ∧ 31 < 32) ∧ q - 1 < q := by decide
/-- Zero, and the largest value, which is not zero. -/
theorem witness_FieldIdentitiesHold : 0 < q ∧ q - 1 < q ∧ q - 1 ≠ 0 ∧ inverse 0 = some 0 := by decide +kernel

end Sys2Proof.Tests
end

section
/-! PROOFS. The step of each arrival, once: a defined access at its window offset, and the engine's completion (R16, R114). -/

namespace Sys2Proof.Machine
open Sys2Proof Sys2Proof.Config

/-! ## The engine's step -/

theorem step_of_busy_nil {s : State} {i : Instr} (hb : s.busy = true) (ha : s.agenda = [])
    (hd : decode s.lcmd = .ok i) : step s = exec i s := by
  simp only [step, turn, ha, hb, if_true, latchedCommand, hd]

theorem step_of_busy_engine {s : State} {i : Instr} {rest : List Arrival} (hb : s.busy = true)
    (ha : s.agenda = .engine :: rest) (hd : decode s.lcmd = .ok i) : step s = exec i { s with agenda := rest } := by
  simp only [step, turn, ha, hb, if_true, latchedCommand, hd]

theorem decode_of_decodeTableWord {nbits w : Nat} {i : Instr} (h : decodeTableWord nbits w = some i) :
    decode (tableWord nbits w) = .ok i := by
  unfold decodeTableWord at h
  split at h
  · cases hd : decode (tableWord nbits w) with
    | ok j => rw [hd] at h; cases h; rfl
    | error r => rw [hd] at h; cases h
  · cases h

/-- Settles O23: the placed word stands in L.CMD with BUSY = 1 and an engine mark first. -/
theorem placedWordRunsNext : Obligations.PlacedWordRunsNext := by
  intro s nbits w i h
  exact step_of_busy_engine (s := s.withFetchWord nbits w) (rest := s.agenda) rfl rfl (decode_of_decodeTableWord h)

/-! ## The step of a host access -/

theorem accessDefined_eight {off : BitVec 8} (h : off.toNat % 8 = 0) : accessDefined 8 off = true := by
  simp only [accessDefined, h, decide_true, Bool.and_self]

theorem step_of_read {s : State} {off : BitVec 8} {rest : List Arrival} (hoff : off.toNat % 8 = 0)
    (ha : s.agenda = .read 8 off :: rest) :
    step s = .next { s with agenda := rest, reads := s.readWindow off :: s.reads } := by
  have hread : ({ s with agenda := rest } : State).readWindow off = s.readWindow off := rfl
  simp only [step, turn, ha, hostRead, accessDefined_eight hoff, if_true, hread]

theorem step_of_write {s : State} {off : BitVec 8} {w : Word} {rest : List Arrival} (hoff : off.toNat % 8 = 0)
    (ha : s.agenda = .write 8 off w :: rest) : step s = .next (({ s with agenda := rest } : State).writeWindow off w) := by
  simp only [step, turn, ha, hostWrite, accessDefined_eight hoff, if_true]

/-! ## The window's register table (R22) -/

@[simp] theorem windowReg_offsetOf (r : WindowReg) : windowReg (offsetOf r) = some r := by
  cases r with
  | din k | dout k | modulus k => fin_cases k <;> rfl
  | _ => rfl

theorem offsetOf_aligned (r : WindowReg) : (offsetOf r).toNat % 8 = 0 := by
  cases r with
  | din k | dout k | modulus k => fin_cases k <;> rfl
  | _ => rfl

@[simp] theorem readWindow_offsetOf (s : State) (r : WindowReg) : s.readWindow (offsetOf r) = s.readReg r := by
  simp only [State.readWindow, windowReg_offsetOf]

@[simp] theorem writeWindow_offsetOf (s : State) (r : WindowReg) (w : Word) :
    s.writeWindow (offsetOf r) w = s.writeReg w r := by
  simp only [State.writeWindow, windowReg_offsetOf]

/-- The step of a write to a register of the window. -/
theorem step_of_hostW {s : State} {r : WindowReg} {w : Word} {rest : List Arrival} (ha : s.agenda = hostW r w :: rest) :
    step s = .next (({ s with agenda := rest } : State).writeReg w r) := by
  rw [step_of_write (offsetOf_aligned r) ha, writeWindow_offsetOf]

end Sys2Proof.Machine
end
section
/-! PROOFS. A completion as a result that is computed first and written second: the result is a function of the command, the
latched data, the element registers and the ROM (R36), and the write touches what the command's rule names (R31). -/

namespace Sys2Proof.Machine
open Sys2Proof Sys2Proof.Config

/-! ## The result of a command and its write -/

/-- What a completion writes, besides BUSY and DONE. -/
inductive Effect where
  | keep
  | reg (rd : Reg) (n : Nat)
  | range (rd : Reg) (ns : List Nat)
  | dout (n : Nat)
  | result (w : Word)
  | root (rd : Reg) (y : Nat)
  | absent

/-- The state with the effect written. -/
def Effect.write (s : State) : Effect → State
  | .keep => s
  | .reg rd n => s.setReg rd n
  | .range rd ns => s.setRange rd ns
  | .dout n => s.setDout n
  | .result w => s.setResult w
  | .root rd y => (s.setReg rd y).setAbsent false
  | .absent => s.setAbsent true

/-- The effect of a SqrtTS answer (R110). -/
def sqrtEffect (rd : Reg) : SqrtAnswer → Except Fault Effect
  | .root y => .ok (.root rd y)
  | .absent => .ok .absent
  | .stuck => .error .squareRootDoesNotEnd

/-- The effect of an Inverse or BatchInvert answer (R103 - R106). -/
def inverseEffect {α : Type} (e : α → Effect) (answer : Option α) : Except Fault Effect :=
  answer.elim (.error .inverseDoesNotEnd) fun v => .ok (e v)

/-- The effect of a command in a state, or the fault it stops with. -/
def effectOf (s : State) : Instr → Except Fault Effect
  | .nop => .ok .keep
  | .ld rd => .ok (.reg rd s.latchedDin)
  | .ldr rd => .ok (.reg rd (montMul s.latchedDin RSQ))
  | .ldu64 rd => .ok (.reg rd (montMul s.latchedDin64 RSQ))
  | .st rs1 => .ok (.dout (s.reg rs1))
  | .str rs1 => .ok (.dout (fromMont (s.reg rs1)))
  | .zero rd => .ok (.reg rd 0)
  | .one rd => .ok (.reg rd ONE)
  | .mov rd rs1 => .ok (.reg rd (s.reg rs1))
  | .add rd rs1 rs2 => .ok (.reg rd (modAdd (s.reg rs1) (s.reg rs2)))
  | .dbl rd rs1 => .ok (.reg rd (modAdd (s.reg rs1) (s.reg rs1)))
  | .sub rd rs1 rs2 => .ok (.reg rd (modSub (s.reg rs1) (s.reg rs2)))
  | .neg rd rs1 => .ok (.reg rd (modNeg (s.reg rs1)))
  | .halve rd rs1 => .ok (.reg rd (modHalve (s.reg rs1)))
  | .mul rd rs1 rs2 => .ok (.reg rd (montMul (s.reg rs1) (s.reg rs2)))
  | .sqr rd rs1 => .ok (.reg rd (montMul (s.reg rs1) (s.reg rs1)))
  | .tomont rd rs1 => .ok (.reg rd (toMont (s.reg rs1)))
  | .frommont rd rs1 => .ok (.reg rd (fromMont (s.reg rs1)))
  | .mulc rd rs1 c => .ok (.reg rd (montMul (s.reg rs1) (toMont (immValue c))))
  | .exp rd rs1 => .ok (.reg rd (modExp (s.reg rs1) s.latchedDin))
  | .leg rs1 => .ok (.result (legendreResult (modExp (s.reg rs1) LEGEXP)))
  | .inv rd rs1 => inverseEffect (.reg rd) (inverse (s.reg rs1))
  | .div rd rs1 rs2 => inverseEffect (fun v => .reg rd (montMul (s.reg rs1) v)) (inverse (s.reg rs2))
  | .binv rd rs1 n =>
    if binvRangesFit rd rs1 n then inverseEffect (.range rd) (batchInverse (s.regRange rs1 (immValue n)))
    else .error .latchedRangeTooLong
  | .sqrt rd rs1 => sqrtEffect rd (sqrtTS s.sqrtG.toNat (s.reg rs1))
  | .cmp rs1 rs2 => .ok (.result (compareResult (fromMont (s.reg rs1)) (fromMont (s.reg rs2))))

/-- The outcome of a completion with a given effect or fault (R114). -/
def effectOutcome (s : State) : Except Fault Effect → Host.Outcome State Fault Refusal
  | .ok e => completed (e.write s)
  | .error r => .fault r

theorem completedOr_map_write {α : Type} (s : State) (e : α → Effect) (answer : Option α) :
    completedOr .inverseDoesNotEnd (answer.map fun v => (e v).write s) = effectOutcome s (inverseEffect e answer) := by
  cases answer <;> rfl

theorem sqrtOutcome_eq (rd : Reg) (s : State) (a : SqrtAnswer) :
    sqrtOutcome rd s a = effectOutcome s (sqrtEffect rd a) := by
  cases a <;> rfl

/-- Every completion is its effect, written. -/
theorem exec_eq (i : Instr) (s : State) : exec i s = effectOutcome s (effectOf s i) := by
  cases i with
  | inv rd rs1 => exact completedOr_map_write s (.reg rd) _
  | div rd rs1 rs2 => exact completedOr_map_write s (fun v => .reg rd (montMul (s.reg rs1) v)) _
  | binv rd rs1 n =>
    rw [exec, execBinv, effectOf]
    split
    · exact completedOr_map_write s (.range rd) _
    · rfl
  | sqrt rd rs1 => exact sqrtOutcome_eq rd s _
  | _ => rfl

/-- A completion that has a next state leaves its effect written, with BUSY = 0 and DONE = 1. -/
theorem exec_next_effect {i : Instr} {s t : State} (h : exec i s = .next t) :
    ∃ e, effectOf s i = .ok e ∧ t = (e.write s).complete := by
  rw [exec_eq] at h
  cases he : effectOf s i with
  | ok e => rw [he] at h; exact ⟨e, rfl, completed_next h⟩
  | error r => rw [he] at h; cases h

theorem inverseEffect_ok {α : Type} {e : α → Effect} {answer : Option α} {x : Effect}
    (h : inverseEffect e answer = .ok x) : ∃ v, answer = some v ∧ x = e v := by
  cases answer with
  | none => cases h
  | some v => cases h; exact ⟨v, rfl, rfl⟩

/-- The effect is a function of the command, L.DIN, the element registers and the ROM (R36). -/
theorem effectOf_congr {s s' : State} (hf : s.f = s'.f) (hl : s.ldin = s'.ldin) (hg : s.sqrtG = s'.sqrtG) (i : Instr) :
    effectOf s i = effectOf s' i := by
  have hreg : s.reg = s'.reg := by funext r; simp only [State.reg, hf]
  have hrange : s.regRange = s'.regRange := by funext r n; simp only [State.regRange, hf]
  have hdin : s.latchedDin = s'.latchedDin := by simp only [State.latchedDin, hl]
  have hdin64 : s.latchedDin64 = s'.latchedDin64 := by simp only [State.latchedDin64, hl]
  cases i <;> simp only [effectOf, hreg, hrange, hdin, hdin64, hg]

end Sys2Proof.Machine
end

section
/-! PROOFS. Which command has which effect, and what the effects leave unchanged (R18, R31, R35, R36). -/

namespace Sys2Proof.Machine
open Sys2Proof Sys2Proof.Config

/-! ## BatchInvert answers one value per element (R106) -/

theorem prefixProducts_length (as : List Nat) : ∀ acc, (prefixProducts acc as).1.length = as.length := by
  induction as with
  | nil => intro acc; rfl
  | cons a as ih => intro acc; simp only [prefixProducts, List.length_cons, ih]

theorem unwindInverses_length (shared : Nat) (l : List (Nat × Nat)) : (unwindInverses shared l).1.length = l.length := by
  induction l with
  | nil => rfl
  | cons x l ih => obtain ⟨a, p⟩ := x; simp only [unwindInverses]; split <;> simp only [List.length_cons, ih]

theorem batchInverse_length {as vs : List Nat} (h : batchInverse as = some vs) : vs.length = as.length := by
  obtain ⟨shared, -, rfl⟩ := Option.map_eq_some_iff.1 h
  rw [unwindInverses_length, List.length_zip, prefixProducts_length, Nat.min_self]

theorem binvRangesFit_iff (rd rs1 : Reg) (n : BitVec 32) :
    binvRangesFit rd rs1 n = true ↔ n.toNat ≤ 16 ∧ rs1.val + n.toNat ≤ 16 ∧ rd.val + n.toNat ≤ 16 := by
  simp only [binvRangesFit, Bool.and_eq_true, decide_eq_true_eq, and_assoc]

/-! ## The effects of each command -/

/-- The commands that can have an effect of this kind: the columns of R64 and R31. -/
def Effect.OfCommand (i : Instr) : Effect → Prop
  | .keep => True
  | .reg rd _ => destinations i = [rd.val]
  | .range rd ns => destinations i = (List.range ns.length).map (rd.val + ·)
  | .dout _ => (∃ rs1, i = .st rs1) ∨ ∃ rs1, i = .str rs1
  | .result _ => (∃ rs1, i = .leg rs1) ∨ ∃ rs1 rs2, i = .cmp rs1 rs2
  | .root rd _ => destinations i = [rd.val] ∧ ∃ rs1, i = .sqrt rd rs1
  | .absent => ∃ rd rs1, i = .sqrt rd rs1

theorem effectOf_ofCommand {s : State} {i : Instr} {e : Effect} (h : effectOf s i = .ok e) : e.OfCommand i := by
  cases i with
  | inv rd rs1 => obtain ⟨v, -, rfl⟩ := inverseEffect_ok h; rfl
  | div rd rs1 rs2 => obtain ⟨v, -, rfl⟩ := inverseEffect_ok h; rfl
  | binv rd rs1 n =>
    rw [effectOf] at h
    split at h
    · next hfit =>
      obtain ⟨vs, hvs, rfl⟩ := inverseEffect_ok h
      obtain ⟨-, hsrc, -⟩ := (binvRangesFit_iff rd rs1 n).1 hfit
      have hlen : vs.length = n.toNat := (batchInverse_length hvs).trans (regRange_length s hsrc)
      rw [Effect.OfCommand, hlen]
      rfl
    · cases h
  | sqrt rd rs1 =>
    rw [effectOf] at h
    generalize sqrtTS _ _ = a at h
    cases a with
    | root y => cases h; exact ⟨rfl, rs1, rfl⟩
    | absent => cases h; exact ⟨rd, rs1, rfl⟩
    | stuck => cases h
  | leg rs1 => cases h; exact .inl ⟨rs1, rfl⟩
  | cmp rs1 rs2 => cases h; exact .inr ⟨rs1, rs2, rfl⟩
  | st rs1 => cases h; exact .inl ⟨rs1, rfl⟩
  | str rs1 => cases h; exact .inr ⟨rs1, rfl⟩
  | nop => cases h; trivial
  | _ => cases h; rfl

/-! ## RESULT, DOUT and ABSENT -/

theorem write_result_of_not_leg_cmp {s : State} {i : Instr} {e : Effect} (he : e.OfCommand i)
    (hleg : ∀ rs1, i ≠ .leg rs1) (hcmp : ∀ rs1 rs2, i ≠ .cmp rs1 rs2) : (e.write s).result = s.result := by
  cases e with
  | result w =>
    obtain ⟨rs1, hi⟩ | ⟨rs1, rs2, hi⟩ := he
    · exact absurd hi (hleg rs1)
    · exact absurd hi (hcmp rs1 rs2)
  | _ => rfl

theorem write_dout_of_not_st_str {s : State} {i : Instr} {e : Effect} (he : e.OfCommand i)
    (hst : ∀ rs1, i ≠ .st rs1) (hstr : ∀ rs1, i ≠ .str rs1) : (e.write s).dout = s.dout := by
  cases e with
  | dout n =>
    obtain ⟨rs1, hi⟩ | ⟨rs1, hi⟩ := he
    · exact absurd hi (hst rs1)
    · exact absurd hi (hstr rs1)
  | _ => rfl

theorem write_absent_of_not_sqrt {s : State} {i : Instr} {e : Effect} (he : e.OfCommand i)
    (hsqrt : ∀ rd rs1, i ≠ .sqrt rd rs1) : (e.write s).absent = s.absent := by
  cases e with
  | root rd y => obtain ⟨-, rs1, hi⟩ := he; exact absurd hi (hsqrt rd rs1)
  | absent => obtain ⟨rd, rs1, hi⟩ := he; exact absurd hi (hsqrt rd rs1)
  | _ => rfl

/-- Settles O50: the effect of a command names the one indicator it writes, and no completion writes the other fields. -/
theorem onlyNamedCommandsWriteIndicators : Obligations.OnlyNamedCommandsWriteIndicators := by
  intro i s t h
  obtain ⟨e, he, ht⟩ := exec_next_effect h
  have hcmd := effectOf_ofCommand he
  have hresult : t.result = (e.write s).result := by rw [ht]; rfl
  have hdout : t.dout = (e.write s).dout := by rw [ht]; rfl
  have habsent : t.absent = (e.write s).absent := by rw [ht]; rfl
  refine ⟨fun hl hc => hresult.trans (write_result_of_not_leg_cmp hcmd hl hc),
    fun hs hr => hdout.trans (write_dout_of_not_st_str hcmd hs hr),
    fun hq => habsent.trans (write_absent_of_not_sqrt hcmd hq), ?_⟩
  rw [exec_next h]
  exact ⟨rfl, rfl, rfl, rfl, rfl, rfl, rfl, rfl, rfl, rfl, rfl⟩

/-! ## The element registers -/

theorem write_f_of_not_destination {s : State} {i : Instr} {e : Effect} (he : e.OfCommand i) {r : Reg}
    (hr : r.val ∉ destinations i) : (e.write s).f[r.val] = s.f[r.val] := by
  have single : ∀ {rd : Reg} (n : Nat), destinations i = [rd.val] → (s.setReg rd n).f[r.val] = s.f[r.val] := by
    intro rd n hd
    rw [hd, List.mem_singleton] at hr
    exact setReg_f_ne s hr n
  cases e with
  | reg rd n => exact single n he
  | root rd y => exact single y he.1
  | range rd ns =>
    have hout : ¬ (rd.val ≤ r.val ∧ r.val < rd.val + ns.length) := by
      rintro ⟨hlo, hhi⟩
      rw [he] at hr
      exact hr (List.mem_map.2 ⟨r.val - rd.val, List.mem_range.2 (by omega), by omega⟩)
    simp only [Effect.write, State.setRange_f]
    rw [writeFrom_getElem ns rd.val s.f r.val r.isLt, dif_neg hout]
  | _ => rfl

/-- Settles O51: every effect writes inside the command's destinations. -/
theorem onlyDestinationRegistersChange : Obligations.OnlyDestinationRegistersChange := by
  intro i s t h r hr
  obtain ⟨e, he, rfl⟩ := exec_next_effect h
  exact write_f_of_not_destination (effectOf_ofCommand he) hr

/-! ## What a completion reads -/

/-- Settles O52: the two states have the same effect, and each effect leaves an indicator alone or writes its own value. -/
theorem resultIsAFunctionOfLatchRegistersAndRom : Obligations.ResultIsAFunctionOfLatchRegistersAndRom := by
  intro i s s' t hf hl hg h
  obtain ⟨e, he, rfl⟩ := exec_next_effect h
  have he' : effectOf s' i = .ok e := (effectOf_congr hf hl hg i).symm.trans he
  refine ⟨(e.write s').complete, by rw [exec_eq, he']; rfl, ?_⟩
  cases e <;> simp [Effect.write, hf]

/-- DIN is neither read nor written by an effect. -/
theorem effectOutcome_din (s : State) (d : Limbs) (x : Except Fault Effect) :
    effectOutcome { s with din := d } x = mapNext (fun t => { t with din := d }) (effectOutcome s x) := by
  cases x with
  | ok e => cases e <;> rfl
  | error r => rfl

/-- An issue that raises BUSY has latched the word and DIN. -/
theorem issue_latched {s : State} {w : Word} (hb : s.busy = false) (h : (s.issue w).busy = true) :
    s.issue w = s.latch w := by
  obtain ⟨hbusy, -⟩ | ⟨-, c, hr⟩ | ⟨-, hl, -⟩ := issue_cases s w
  · rw [hb] at hbusy; cases hbusy
  · rw [hr, State.refuse_busy, hb] at h; cases h
  · exact hl

/-- Settles O53: an accepted issue is the latch of R112, and the effect of a command does not read DIN. -/
theorem dinWritesAfterIssueDoNotMatter : Obligations.DinWritesAfterIssueDoNotMatter := by
  refine ⟨fun s w hb h => ?_, fun i s d => ?_, fun s i hb ha hd => step_of_busy_nil hb ha hd⟩
  · rw [issue_latched hb h]
    exact ⟨rfl, rfl⟩
  · have heff : effectOf { s with din := d } i = effectOf s i := effectOf_congr rfl rfl rfl i
    rw [exec_eq, exec_eq, heff, effectOutcome_din]

end Sys2Proof.Machine
end

section
/-! PROOFS. Every value that a command computes from values below q is below q (R20), for each primitive that stores one. -/

namespace Sys2Proof.Machine
open Sys2Proof Sys2Proof.Config

/-! ## The modular adder and the multiplier -/

theorem modAdd_lt {x y : Nat} (hx : x < q) (hy : y < q) : modAdd x y < q := condSub_lt (by omega)

theorem montMul_lt_q {x y : Nat} (hx : x < q) (hy : y < q) : montMul x y < q := montMul_lt (bound_of_lt_q hx hy)

theorem toMont_lt {x : Nat} (hx : x < R) : toMont x < q := montMul_lt (bound_of_lt_R hx RSQ_lt)

theorem fromMont_lt {x : Nat} (hx : x < q) : fromMont x < q := montMul_lt_q hx (by decide)

theorem latchedDin_lt (s : State) : s.latchedDin < R := s.ldin.isLt

theorem latchedDin64_lt (s : State) : s.latchedDin64 < R :=
  lt_trans (s.ldin.extractLsb' 0 64).isLt (by decide)

theorem immValue_lt (c : BitVec 32) : immValue c < R := lt_trans c.isLt (by decide)

/-! ## Inverse: the cofactors (R100) -/

theorem stripTwos_cofactor_lt (n : Nat) : ∀ {v s : Nat}, s < q → (stripTwos v s n).2 < q := by
  induction n with
  | zero => intro v s hs; exact hs
  | succ n ih =>
    intro v s hs
    rw [stripTwos]
    split
    · exact ih (modHalve_lt hs)
    · exact hs

theorem gcdPass_cofactors_lt {g : GcdState} (hr : g.r < q) (hs : g.s < q) :
    (gcdPass g).r < q ∧ (gcdPass g).s < q := by
  have hs' : (stripTwos g.v g.s 256).2 < q := stripTwos_cofactor_lt 256 hs
  have hr' : (stripTwos g.u g.r 256).2 < q := stripTwos_cofactor_lt 256 hr
  simp only [gcdPass]
  split
  · exact ⟨hr', modSub_lt hs' hr'⟩
  · exact ⟨modSub_lt hr' hs', hs'⟩

theorem gcdLoop_lt (n : Nat) : ∀ {g : GcdState} {x : Nat}, g.r < q → g.s < q → gcdLoop g n = some x → x < q := by
  induction n with
  | zero => intro g x _ _ h; cases h
  | succ n ih =>
    intro g x hr hs h
    obtain ⟨hr', hs'⟩ := gcdPass_cofactors_lt hr hs
    rw [gcdLoop] at h
    generalize gcdPass g = p at h hr' hs'
    split at h
    · cases h; exact hr'
    · split at h
      · cases h; exact hs'
      · exact ih hr' hs' h

theorem inverse_lt {x v : Nat} (h : inverse x = some v) : v < q := by
  unfold inverse at h
  split at h
  · cases h; exact q_pos
  · exact gcdLoop_lt 512 q_pos RSQ_lt h

/-! ## BatchInvert (R106) -/

theorem prefixProducts_lt {as : List Nat} : ∀ {acc : Nat}, acc < q → (∀ a ∈ as, a < q) →
    ∀ p ∈ (prefixProducts acc as).1, p < q := by
  induction as with
  | nil => intro acc _ _ p hp; cases hp
  | cons a as ih =>
    intro acc hacc has p hp
    have hnext : (if a = 0 then acc else montMul acc a) < q := by
      split
      · exact hacc
      · exact montMul_lt_q hacc (has a List.mem_cons_self)
    rw [prefixProducts] at hp
    obtain rfl | hp := List.mem_cons.1 hp
    · exact hacc
    · exact ih hnext (fun b hb => has b (List.mem_cons_of_mem a hb)) p hp

theorem unwindInverses_lt {shared : Nat} (hsh : shared < q) {l : List (Nat × Nat)} (hl : ∀ x ∈ l, x.1 < q ∧ x.2 < q) :
    (∀ y ∈ (unwindInverses shared l).1, y < q) ∧ (unwindInverses shared l).2 < q := by
  induction l with
  | nil => exact ⟨fun _ hy => absurd hy List.not_mem_nil, hsh⟩
  | cons x l ih =>
    obtain ⟨a, p⟩ := x
    obtain ⟨ha, hp⟩ := hl (a, p) List.mem_cons_self
    obtain ⟨htail, hleft⟩ := ih fun x hx => hl x (List.mem_cons_of_mem _ hx)
    rw [unwindInverses]
    generalize unwindInverses shared l = tail at htail hleft
    split
    · exact ⟨List.forall_mem_cons.2 ⟨q_pos, htail⟩, hleft⟩
    · exact ⟨List.forall_mem_cons.2 ⟨montMul_lt_q hp hleft, htail⟩, montMul_lt_q hleft ha⟩

theorem batchInverse_lt {as vs : List Nat} (has : ∀ a ∈ as, a < q) (h : batchInverse as = some vs) :
    ∀ v ∈ vs, v < q := by
  obtain ⟨shared, hsh, rfl⟩ := Option.map_eq_some_iff.1 h
  refine (unwindInverses_lt (inverse_lt hsh) fun x hx => ?_).1
  obtain ⟨ha, hp⟩ := List.of_mem_zip (show (x.1, x.2) ∈ _ from hx)
  exact ⟨has _ ha, prefixProducts_lt ONE_lt has _ hp⟩

/-! ## SqrtTS (R107) -/

theorem squareTimes_lt (n : Nat) : ∀ {c : Nat}, c < q → squareTimes c n < q := by
  induction n with
  | zero => intro c hc; exact hc
  | succ n ih => intro c hc; exact ih (montMul_lt_q hc hc)

theorem sqrtLoop_root_lt (n : Nat) : ∀ {g r y b z : Nat}, g < q → y < q → sqrtLoop g r y b n = .root z → z < q := by
  induction n with
  | zero => intro g r y b z _ _ h; cases h
  | succ n ih =>
    intro g r y b z hg hy h
    rw [sqrtLoop] at h
    cases hm : squaringsToOne b 0 r with
    | none => rw [hm] at h; cases h
    | some m =>
      have hc : squareTimes g (r - m - 1) < q := squareTimes_lt _ hg
      rw [hm, Option.elim_some] at h
      split at h
      · cases h; exact hy
      · exact ih (montMul_lt_q hc hc) (montMul_lt_q hy hc) h

theorem sqrtTS_root_lt {g x y : Nat} (hg : g < q) (hx : x < q) (h : sqrtTS g x = .root y) : y < q := by
  have hy : montMul x (modExp x SQRTEXP) < q := montMul_lt_q hx (modExp_lt hx _)
  simp only [sqrtTS] at h
  generalize montMul x (modExp x SQRTEXP) = y0 at h hy
  generalize squareTimes _ _ = c at h
  split at h
  · cases h; exact q_pos
  · split at h
    · exact sqrtLoop_root_lt S hg hy h
    · cases h

/-! ## RESULT (R27) -/

theorem legendreResult_cases (l : Nat) :
    legendreResult l = resultZero ∨ legendreResult l = resultPlusOne ∨ legendreResult l = resultMinusOne := by
  unfold legendreResult
  split_ifs <;> simp

theorem compareResult_cases (a b : Nat) :
    compareResult a b = resultZero ∨ compareResult a b = resultPlusOne ∨ compareResult a b = resultMinusOne := by
  unfold compareResult
  split_ifs <;> simp

end Sys2Proof.Machine
end

section
/-! PROOFS. The invariant of the legal states: a completion, an issue, a host write and a reset each keep it, so every step
does (R20, R25, R27, R112). -/

namespace Sys2Proof.Machine
open Sys2Proof Sys2Proof.Config

/-! ## A completion -/

/-- Every value the effect writes is legal where it is written: below q, or one of RESULT's three. -/
def Effect.Legal : Effect → Prop
  | .keep | .absent => True
  | .reg _ n | .dout n | .root _ n => n < q
  | .range _ ns => ∀ n ∈ ns, n < q
  | .result w => w = resultZero ∨ w = resultPlusOne ∨ w = resultMinusOne

theorem regRange_lt {s : State} (h : Canonical s) (first : Reg) (n : Nat) : ∀ a ∈ s.regRange first n, a < q := by
  intro a ha
  obtain ⟨v, hv, rfl⟩ := List.mem_map.1 ha
  have hmem : v ∈ s.f := Vector.mem_toList_iff.1 (List.mem_of_mem_drop (List.mem_of_mem_take hv))
  obtain ⟨i, hi, rfl⟩ := Vector.getElem_of_mem hmem
  exact h ⟨i, hi⟩

/-- From registers and an SQRT_G below q, and for LD an L.DIN below q, a command computes a legal effect. -/
theorem effectOf_legal {s : State} {i : Instr} {e : Effect} (hf : Canonical s) (hg : s.sqrtG.toNat < q)
    (hld : loadsRaw i = true → s.ldin.toNat < q) (h : effectOf s i = .ok e) : e.Legal := by
  cases i with
  | nop => cases h; trivial
  | ld rd => cases h; exact hld rfl
  | ldr rd => cases h; exact toMont_lt (latchedDin_lt s)
  | ldu64 rd => cases h; exact toMont_lt (latchedDin64_lt s)
  | st rs1 => cases h; exact hf rs1
  | str rs1 => cases h; exact fromMont_lt (hf rs1)
  | zero rd => cases h; exact q_pos
  | one rd => cases h; exact ONE_lt
  | mov rd rs1 => cases h; exact hf rs1
  | add rd rs1 rs2 => cases h; exact modAdd_lt (hf rs1) (hf rs2)
  | dbl rd rs1 => cases h; exact modAdd_lt (hf rs1) (hf rs1)
  | sub rd rs1 rs2 => cases h; exact modSub_lt (hf rs1) (hf rs2)
  | neg rd rs1 => cases h; exact modNeg_lt (hf rs1)
  | halve rd rs1 => cases h; exact modHalve_lt (hf rs1)
  | mul rd rs1 rs2 => cases h; exact montMul_lt_q (hf rs1) (hf rs2)
  | sqr rd rs1 => cases h; exact montMul_lt_q (hf rs1) (hf rs1)
  | tomont rd rs1 => cases h; exact toMont_lt ((hf rs1).trans q_lt_R)
  | frommont rd rs1 => cases h; exact fromMont_lt (hf rs1)
  | mulc rd rs1 c => cases h; exact montMul_lt_q (hf rs1) (toMont_lt (immValue_lt c))
  | exp rd rs1 => cases h; exact modExp_lt (hf rs1) _
  | leg rs1 => cases h; exact legendreResult_cases _
  | inv rd rs1 =>
    obtain ⟨v, hv, rfl⟩ := inverseEffect_ok h
    exact inverse_lt hv
  | div rd rs1 rs2 =>
    obtain ⟨v, hv, rfl⟩ := inverseEffect_ok h
    exact montMul_lt_q (hf rs1) (inverse_lt hv)
  | binv rd rs1 n =>
    rw [effectOf] at h
    split at h
    · obtain ⟨vs, hvs, rfl⟩ := inverseEffect_ok h
      exact batchInverse_lt (regRange_lt hf rs1 _) hvs
    · cases h
  | sqrt rd rs1 =>
    rw [effectOf] at h
    cases ha : sqrtTS s.sqrtG.toNat (s.reg rs1) with
    | root y => rw [ha] at h; cases h; exact sqrtTS_root_lt hg (hf rs1) ha
    | absent => rw [ha] at h; cases h; trivial
    | stuck => rw [ha] at h; cases h
  | cmp rs1 rs2 => cases h; exact compareResult_cases _ _

theorem q_le_two_pow_256 : q ≤ 2 ^ 256 := by decide

theorem elemOf_lt_q {n : Nat} (h : n < q) : (elemOf n).toNat < q := by
  rw [elemOf_toNat (h.trans_le q_le_two_pow_256)]
  exact h

theorem canonical_setReg {s : State} (h : Canonical s) (rd : Reg) {n : Nat} (hn : n < q) : Canonical (s.setReg rd n) :=
  reg_setReg_lt s q_le_two_pow_256 h rd hn

theorem canonical_setRange {s : State} (h : Canonical s) (rd : Reg) {ns : List Nat} (hns : ∀ n ∈ ns, n < q) :
    Canonical (s.setRange rd ns) := by
  intro r
  rw [State.reg, State.setRange_f, writeFrom_getElem ns rd.val s.f r.val r.isLt]
  split
  · exact elemOf_lt_q (hns _ (List.getElem_mem _))
  · exact h r

theorem doutCanonical_setDout (s : State) {n : Nat} (hn : n < q) : DoutCanonical (s.setDout n) := by
  rw [DoutCanonical, State.setDout_dout, limbsValue_limbsOfElem]
  exact elemOf_lt_q hn

theorem write_canonical {s : State} {e : Effect} (h : Canonical s) (he : e.Legal) : Canonical (e.write s) := by
  cases e with
  | reg rd n => exact canonical_setReg h rd he
  | root rd y => exact canonical_setReg h rd he
  | range rd ns => exact canonical_setRange h rd he
  | _ => exact h

theorem write_result {s : State} {e : Effect} (h : ResultLegal s) (he : e.Legal) : ResultLegal (e.write s) := by
  cases e with
  | result w => exact he
  | _ => exact h

theorem write_dout {s : State} {e : Effect} (h : DoutCanonical s) (he : e.Legal) : DoutCanonical (e.write s) := by
  cases e with
  | dout n => exact doutCanonical_setDout s he
  | _ => exact h

theorem Legal.withAgenda {s : State} (h : Legal s) (l : List Arrival) : Legal { s with agenda := l } :=
  ⟨h.canonical, h.status, h.latch, h.result, h.dout, h.sqrtG⟩

/-- The completion of a command that an issue accepts keeps a legal state legal. -/
theorem Legal.keptByExec {s t : State} {i : Instr} (h : Legal s) (hld : loadsRaw i = true → s.ldin.toNat < q)
    (he : exec i s = .next t) : Legal t := by
  obtain ⟨e, heff, ht⟩ := exec_next_effect he
  have hleg : e.Legal := effectOf_legal h.canonical h.sqrtG.1 hld heff
  have hframe := exec_next he
  exact {
    canonical := by rw [ht]; exact write_canonical h.canonical hleg
    status := by rw [hframe]; exact ⟨Bool.false_ne_true.elim, h.status.2⟩
    latch := by rw [hframe]; exact Bool.false_ne_true.elim
    result := by rw [ht]; exact write_result h.result hleg
    dout := by rw [ht]; exact write_dout h.dout hleg
    sqrtG := by rw [hframe]; exact h.sqrtG }

/-! ## Issue, host writes and reset -/

/-- Outside a completion and a reset only STATUS and the latch need a proof. -/
theorem Legal.of_results_eq {s t : State} (h : Legal s) (hf : t.f = s.f) (hr : t.result = s.result)
    (hd : t.dout = s.dout) (hg : t.sqrtG = s.sqrtG) (hst : StatusLegal t) (hl : LatchLegal t) : Legal t where
  canonical := fun r => by rw [State.reg, hf]; exact h.canonical r
  status := hst
  latch := hl
  result := by rw [ResultLegal, hr]; exact h.result
  dout := by rw [DoutCanonical, hd]; exact h.dout
  sqrtG := by rw [SqrtGLegal, hg]; exact h.sqrtG

theorem Legal.recordError {s : State} (h : Legal s) (c : ErrCode) : Legal (s.recordError c) :=
  h.of_results_eq rfl rfl rfl rfl ⟨h.status.1, fun he => by cases he⟩ h.latch

theorem Legal.refuse {s : State} (h : Legal s) (hb : s.busy = false) (c : ErrCode) : Legal (s.refuse c) := by
  have hidle : (s.refuse c).busy ≠ true := by rw [State.refuse_busy, hb]; exact Bool.false_ne_true
  exact h.of_results_eq rfl rfl rfl rfl ⟨fun hb' => absurd hb' hidle, fun he => by cases he⟩ fun hb' => absurd hb' hidle

theorem Legal.latchWord {s : State} (h : Legal s) {w : Word} {i : Instr} (hd : decode w = .ok i)
    (hw : WellFormed i = true) (hld : loadsRaw i = true → (limbsValue s.din).toNat < q) : Legal (s.latch w) :=
  h.of_results_eq rfl rfl rfl rfl ⟨fun _ => rfl, h.status.2⟩ fun _ => ⟨i, hd, hw, hld⟩

theorem Legal.issue {s : State} (h : Legal s) (w : Word) : Legal (s.issue w) := by
  obtain ⟨-, hi⟩ | ⟨hb, c, hi⟩ | ⟨-, hi, i, hd, hw, hld⟩ := issue_cases s w
  · rw [hi]; exact h.recordError _
  · rw [hi]; exact h.refuse hb c
  · rw [hi]; exact h.latchWord hd hw hld

theorem Legal.writeStatus {s : State} (h : Legal s) (w : Word) : Legal (s.writeStatus w) := by
  obtain ⟨hdone, herr⟩ := h.status
  refine h.of_results_eq rfl rfl rfl rfl ⟨fun hb => ?_, fun he => ?_⟩ h.latch
  · rw [State.writeStatus_done, hdone hb, Bool.false_and]
  · rw [State.writeStatus_errCode]
    cases hw : w.getLsbD 2 with
    | true => rfl
    | false => exact herr (by simpa only [State.writeStatus_err, hw, Bool.not_false, Bool.and_true] using he)

theorem Legal.writeWindow {s : State} (h : Legal s) (off : BitVec 8) (w : Word) : Legal (s.writeWindow off w) := by
  obtain hw | hw | hw | ⟨k, hw⟩ | hw := writeWindow_cases s off w <;> rw [hw]
  · exact h.issue w
  · exact h.writeStatus w
  · exact h.of_results_eq rfl rfl rfl rfl h.status h.latch
  · exact h.of_results_eq rfl rfl rfl rfl h.status h.latch
  · exact h

theorem Legal.keptByReset {s : State} (h : Legal s) : Legal (resetBlock s) where
  canonical := (by decide : ∀ r : Reg, State.reset.reg r < q)
  status := ⟨Bool.false_ne_true.elim, fun _ => rfl⟩
  latch := Bool.false_ne_true.elim
  result := .inl rfl
  dout := (by decide : (limbsValue State.reset.dout).toNat < q)
  sqrtG := h.sqrtG

/-! ## The step -/

/-- Settles O55, by what a step can do: idle, a host read or write, a passed mark, a reset, or a completion. -/
theorem everyStepKeepsLegalStates : Obligations.EveryStepKeepsLegalStates := by
  intro s t h hstep
  obtain ⟨-, -, rfl⟩ | ⟨_, off, rest, -, hr⟩ | ⟨_, off, w, rest, -, hw⟩ | ⟨-, rest, -, rfl⟩ | ⟨rest, -, rfl⟩ |
    ⟨hb, i, hd, hexec⟩ := step_cases hstep
  · exact h
  · obtain ⟨-, rfl⟩ := hostRead_next hr
    exact h.of_results_eq rfl rfl rfl rfl h.status h.latch
  · obtain ⟨-, rfl⟩ := hostWrite_next hw
    exact (h.withAgenda rest).writeWindow off w
  · exact h.withAgenda rest
  · exact (h.withAgenda rest).keptByReset
  · have hld : loadsRaw i = true → s.ldin.toNat < q := by
      obtain ⟨j, hj, -, hload⟩ := h.latch hb
      obtain rfl : i = j := Except.ok.inj (hd.symm.trans hj)
      exact hload
    obtain ⟨-, he⟩ | ⟨rest, -, he⟩ := hexec
    · exact h.keptByExec hld he
    · exact (h.withAgenda rest).keptByExec hld he

end Sys2Proof.Machine
end

section
/-! PROOFS. The host's view of STATUS, CTRL, DIN and the other window registers (R22 - R30). -/

namespace Sys2Proof.Machine
open Sys2Proof Sys2Proof.Config

/-! ## STATUS (R24, R115) -/

/-- The STATUS word bit by bit: BUSY, DONE, ERR, ABSENT, four zeros, ERRCODE, zeros (R24). -/
theorem statusWord_getLsbD (s : State) (i : Nat) : s.statusWord.getLsbD i =
    if i < 1 then s.busy else if i < 2 then s.done else if i < 3 then s.err else if i < 4 then s.absent
    else if i < 8 then false else s.errCode.bits.getLsbD (i - 8) := by
  rw [State.statusWord]
  simp only [bit, BitVec.getLsbD_append, BitVec.getLsbD_zero, BitVec.getLsbD_ofBool]
  match i with
  | 0 | 1 | 2 | 3 => simp
  | i + 4 =>
    have habove : ¬ i + 4 < 3 := by omega
    by_cases hzero : i < 4
    · simp [hzero, habove]
    · have hcode : ¬ i + 4 < 8 := by omega
      have hcut : s.errCode.bits.getLsbD (i - 4) = true → i - 4 < 4 := BitVec.lt_of_getLsbD
      simpa [hzero, habove, hcode] using hcut

/-- The fields of the STATUS word at their places. -/
theorem statusWord_fields (s : State) :
    s.statusWord.getLsbD 0 = s.busy ∧ s.statusWord.getLsbD 1 = s.done ∧ s.statusWord.getLsbD 2 = s.err ∧
      s.statusWord.getLsbD 3 = s.absent ∧ s.statusWord.extractLsb' 8 4 = s.errCode.bits ∧
      s.statusWord.extractLsb' 4 4 = 0#4 ∧ s.statusWord.extractLsb' 12 52 = 0#52 := by
  have field : ∀ {start len : Nat} {v : BitVec len}, (∀ i < len, s.statusWord.getLsbD (start + i) = v.getLsbD i) →
      s.statusWord.extractLsb' start len = v := by
    intro start len v h
    apply BitVec.eq_of_getLsbD_eq
    intro i hi
    rw [BitVec.getLsbD_extractLsb', decide_eq_true hi, Bool.true_and, h i hi]
  refine ⟨statusWord_getLsbD s 0, statusWord_getLsbD s 1, statusWord_getLsbD s 2, statusWord_getLsbD s 3,
    field fun i hi => ?_, field fun i hi => ?_, field fun i hi => ?_⟩ <;>
    rw [statusWord_getLsbD, if_neg (by omega), if_neg (by omega), if_neg (by omega), if_neg (by omega)]
  · rw [if_neg (by omega), Nat.add_sub_cancel_left]
  · rw [if_pos (by omega), BitVec.getLsbD_zero]
  · rw [if_neg (by omega), BitVec.getLsbD_zero, BitVec.getLsbD_of_ge _ _ (by omega)]

/-- Settles O11: the fields of the word, the five codes, and the step of a STATUS write. -/
theorem statusReadsItsFieldsAndClearsByOne : Obligations.StatusReadsItsFieldsAndClearsByOne := by
  intro s
  refine ⟨statusWord_fields s, ⟨rfl, rfl, rfl, rfl, rfl⟩, fun w rest ha => ?_⟩
  exact step_of_hostW (r := .status) ha

/-! ## CTRL (R26) -/

theorem ctrlWord_eq (s : State) : s.ctrlWord = if s.ie then 1#64 else 0#64 := by
  unfold State.ctrlWord
  cases s.ie <;> rfl

theorem readWindow_ctrl (s : State) : s.readWindow 0x10#8 = if s.ie then 1#64 else 0#64 :=
  (readWindow_offsetOf s .ctrl).trans (ctrlWord_eq s)

/-- Settles O12: the step of a CTRL write, the CTRL word and the interrupt's gate. -/
theorem ctrlHoldsOnlyTheInterruptEnable : Obligations.CtrlHoldsOnlyTheInterruptEnable := by
  refine ⟨fun s w rest ha => step_of_hostW (r := .ctrl) ha, readWindow_ctrl, fun s hie => ?_, rfl⟩
  rw [State.irq, hie, Bool.false_and]

/-! ## DIN (R28) -/

@[simp] theorem limbAt_setLimbAt (l : Limbs) (k j : Fin 4) (w : Word) :
    limbAt (setLimbAt l k w) j = if j = k then w else limbAt l j := by
  fin_cases k <;> fin_cases j <;> rfl

theorem readWindow_din (s : State) (k : Fin 4) : s.readWindow (offsetOf (.din k)) = limbAt s.din k :=
  readWindow_offsetOf s (.din k)

/-- Settles O13: a write sets one limb of DIN, and each offset reads its own limb. -/
theorem dinReadsBackTheLastWrite : Obligations.DinReadsBackTheLastWrite := by
  refine ⟨fun s k w rest ha => ⟨setLimbAt s.din k w, step_of_hostW (r := .din k) ha, fun j => ?_⟩, fun s => rfl, by decide⟩
  refine (readWindow_din _ j).trans ?_
  calc limbAt (setLimbAt s.din k w) j
      = if j = k then w else limbAt s.din j := limbAt_setLimbAt s.din k j w
    _ = if j = k then w else s.readWindow (offsetOf (.din j)) := by rw [readWindow_din]

/-! ## The table of the window (R22) -/

/-- Settles O15: each of the sixteen offsets is that of its register, and a read is recorded and changes nothing else. -/
theorem windowReadsReturnTheRegisters : Obligations.WindowReadsReturnTheRegisters := by
  refine ⟨fun s => ?_, fun s off rest hoff ha => step_of_read hoff ha⟩
  exact ⟨rfl, rfl, readWindow_ctrl s, rfl, rfl, rfl, rfl, rfl, rfl, rfl, rfl, rfl, rfl, rfl, rfl, rfl⟩

end Sys2Proof.Machine
end

section
/-! PROOFS. The constants of the ROM against their definitions (R32), and the legal values of SQRT_G (R108). -/

namespace Sys2Proof.Machine
open Sys2Proof Sys2Proof.Config

/-! ## Squares modulo q -/

theorem seven_pow_LEGEXP : reg (modExp (mont 7) LEGEXP) ≠ 1 := by decide +kernel

/-- 7 fails Euler's criterion. -/
theorem not_isSquareModQ_seven : ¬ IsSquareModQ 7 := by
  rintro ⟨r, hr⟩
  refine seven_pow_LEGEXP ?_
  rw [← pow_mod_q]
  exact euler_of_square hr (by decide)

/-- Roots of 1 .. 6, so that no non-residue is less than 7. -/
theorem isSquareModQ_of_lt_seven {z : Nat} (h0 : 0 < z) (h7 : z < 7) : IsSquareModQ z := by
  interval_cases z
  · exact ⟨1, by decide⟩
  · exact ⟨0x3c7435ecefc4190d1792b62ce1f7c100bfd00001, by decide⟩
  · exact ⟨0x2d4bd2a75af1e8188024a26bab116b290c5874fe805fffff, by decide⟩
  · exact ⟨2, by decide⟩
  · exact ⟨0x194340f142d6223a1b9f4a287e6959809cff8eec124194caf85fb7eae28b59a, by decide⟩
  · exact ⟨0x43e0bf8baf111c1ec4aedfc6a82c9c51ccc8aa4c2826fb03bf100001, by decide⟩

/-! ## The constants -/

theorem sqrtGDefault_eq_modExp : sqrtGDefault.toNat = modExp (mont 7) T := by decide +kernel

theorem sqrtGDefault_eq : sqrtGDefault.toNat = mont (7 ^ T) := sqrtGDefault_eq_modExp.trans (modExp_mont 7 T)

/-- The power 2^21 of the default SQRT_G is Mont(-1). -/
theorem squareTimes_sqrtGDefault : squareTimes sqrtGDefault.toNat 21 = q - ONE := by decide +kernel

theorem montMul_minus_one_sq : montMul (q - ONE) (q - ONE) = ONE := by decide

/-- Settles O19: each constant is evaluated; SQRT_G is 7^T by `modExp_mont`, and its power 2^21 is Mont(-1). -/
theorem romConstantsMeetTheirDefinitions : Obligations.RomConstantsMeetTheirDefinitions := by
  refine ⟨by decide, RSQ_eq, by decide, by decide, ONE_eq, LEGEXP_eq, rfl, T_eq, by decide, SQRTEXP_eq,
    sqrtGDefault_eq, not_isSquareModQ_seven, fun z h0 h7 => isSquareModQ_of_lt_seven h0 h7, ?_, ?_⟩
  · rw [squareTimes_sqrtGDefault, montMul_minus_one_sq]
  · rw [squareTimes_sqrtGDefault]
    decide

/-! ## Non-residues in the field of q elements -/

theorem isSquareModQ_iff (v : Nat) : IsSquareModQ v ↔ IsSquare (v : ZMod q) := by
  have hq : NeZero q := ⟨q_prime.ne_zero⟩
  constructor
  · rintro ⟨r, hr⟩
    exact ⟨r, by rw [← Nat.cast_mul]; exact (ZMod.natCast_eq_natCast_iff' _ _ _).2 hr.symm⟩
  · rintro ⟨r, hr⟩
    refine ⟨r.val, (ZMod.natCast_eq_natCast_iff' _ _ _).1 ?_⟩
    rw [Nat.cast_mul, ZMod.natCast_zmod_val, hr]

theorem minus_one_ne_one : (-1 : ZMod q) ≠ 1 := by
  have hq : Fact (2 < q) := ⟨by decide⟩
  exact ZMod.neg_one_ne_one

/-- Euler's criterion for a non-residue, which is never 0. -/
theorem not_isSquareModQ_iff (z : Nat) : ¬ IsSquareModQ z ↔ (z : ZMod q) ^ LEGEXP = -1 := by
  have hq : Fact q.Prime := ⟨q_prime⟩
  have hhalf : q / 2 = LEGEXP := by decide
  rw [isSquareModQ_iff]
  by_cases hz : (z : ZMod q) = 0
  · have hpow : (z : ZMod q) ^ LEGEXP = 0 := by rw [hz]; exact zero_pow (by decide)
    rw [hpow, hz]
    exact iff_of_false (fun h => h (IsSquare.zero)) (fun h => neg_ne_zero.2 one_ne_zero h.symm)
  · rw [ZMod.euler_criterion q hz, hhalf]
    obtain h | h := ZMod.pow_div_two_eq_neg_one_or_one q hz
    · rw [hhalf] at h
      exact iff_of_false (fun hn => hn h) (fun h' => minus_one_ne_one (h'.symm.trans h))
    · rw [hhalf] at h
      exact iff_of_true (fun h' => minus_one_ne_one (h.symm.trans h')) h

/-! ## The legal values of SQRT_G -/

theorem mont_eq_mont_iff (a b : Nat) : mont a = mont b ↔ (a : ZMod q) = b := by
  rw [ZMod.natCast_eq_natCast_iff]
  exact ⟨modEq_of_mul_R, fun h => h.mul_right R⟩

theorem mont_eq_minus_one_iff (a : Nat) : mont a = q - ONE ↔ (a : ZMod q) = -1 := by
  have hmont : q - ONE = mont (q - 1) := by decide
  have hcast : ((q - 1 : Nat) : ZMod q) = -1 := by
    rw [Nat.cast_sub q_pos, ZMod.natCast_self, Nat.cast_one, zero_sub]
  rw [hmont, mont_eq_mont_iff, hcast]

/-- The order condition of SQRT_G, on the represented value. -/
theorem squareTimes_mont_eq_minus_one_iff (a : Nat) :
    squareTimes (mont a) (S - 1) = q - ONE ↔ (a : ZMod q) ^ 2 ^ (S - 1) = -1 := by
  rw [squareTimes_mont, mont_eq_minus_one_iff, Nat.cast_pow]

theorem T_mul_two_pow : T * 2 ^ (S - 1) = LEGEXP := by decide

/-- z^T has the order of a legal SQRT_G exactly when z is a non-residue. -/
theorem pow_T_order_iff (z : Nat) : ((z : ZMod q) ^ T) ^ 2 ^ (S - 1) = -1 ↔ ¬ IsSquareModQ z := by
  rw [not_isSquareModQ_iff, ← pow_mul, T_mul_two_pow]

/-- The inverse of the odd T modulo 2^22. -/
def tInverse : Nat := 0x2d56ab

theorem tInverse_mul_T : tInverse * T = 2 ^ S * (tInverse * T / 2 ^ S) + 1 := by decide

/-- Where a^(2^21) = -1, the power T undoes the power 1/T, since 2^22 annihilates the exponent. -/
theorem pow_tInverse_pow_T {a : ZMod q} (ha : a ^ 2 ^ (S - 1) = -1) : (a ^ tInverse) ^ T = a := by
  have hone : a ^ 2 ^ S = 1 := by
    have hS : 2 ^ S = 2 ^ (S - 1) * 2 := by decide
    rw [hS, pow_mul, ha, neg_one_sq]
  rw [← pow_mul, tInverse_mul_T, pow_succ, pow_mul, hone, one_pow, one_mul]

/-- Settles O47: SQRT_G = Mont(a) is Mont(z^T) for z = a^(1/T), and z is a non-residue by Euler's criterion. -/
theorem legalSqrtGIsANonResidueRaisedToT : Obligations.LegalSqrtGIsANonResidueRaisedToT := by
  intro s
  constructor
  · rintro ⟨hlt, hord⟩
    rw [← mont_reg hlt, squareTimes_mont_eq_minus_one_iff] at hord
    have hroot := pow_tInverse_pow_T hord
    refine ⟨reg s.sqrtG.toNat ^ tInverse, ?_, ?_⟩
    · rw [← pow_T_order_iff, Nat.cast_pow, hroot, hord]
    · have hpow : mont (reg s.sqrtG.toNat) = mont ((reg s.sqrtG.toNat ^ tInverse) ^ T) := by
        rw [mont_eq_mont_iff, Nat.cast_pow, Nat.cast_pow, hroot]
      exact (mont_reg hlt).symm.trans hpow
  · rintro ⟨z, hz, hg⟩
    refine ⟨hg ▸ mont_lt _, ?_⟩
    rw [hg, squareTimes_mont_eq_minus_one_iff, Nat.cast_pow, pow_T_order_iff]
    exact hz

end Sys2Proof.Machine
end

section
/-! PROOFS. The edges of the register window: unmapped offsets, read-only registers, undefined accesses and the host's
addresses (R38 - R42). -/

namespace Sys2Proof.Machine
open Sys2Proof Sys2Proof.Config

/-! ## Unmapped offsets and read-only registers (R40) -/

theorem eq_offsetOf_of_windowReg {off : BitVec 8} {r : WindowReg} (h : windowReg off = some r) : off = offsetOf r := by
  unfold windowReg at h
  split at h
  case h_17 => cases h
  all_goals
    cases h
    exact BitVec.eq_of_toNat_eq ‹_›

theorem offsetOf_mem_mappedOffsets (r : WindowReg) : offsetOf r ∈ mappedOffsets := by
  cases r with
  | din k | dout k | modulus k => fin_cases k <;> decide
  | _ => decide

theorem windowReg_of_unmapped {off : BitVec 8} (h : off ∉ mappedOffsets) : windowReg off = none := by
  cases hr : windowReg off with
  | none => rfl
  | some r => exact absurd (eq_offsetOf_of_windowReg hr ▸ offsetOf_mem_mappedOffsets r) h

theorem readWindow_of_unmapped (s : State) {off : BitVec 8} (h : off ∉ mappedOffsets) : s.readWindow off = 0#64 := by
  rw [State.readWindow, windowReg_of_unmapped h]

theorem writeWindow_of_unmapped (s : State) {off : BitVec 8} (w : Word) (h : off ∉ mappedOffsets) :
    s.writeWindow off w = s := by
  rw [State.writeWindow, windowReg_of_unmapped h]

/-- The read-only offsets are those of RESULT, of DOUT0-DOUT3 and of Q0-Q3. -/
theorem readOnly_offset_cases :
    ∀ off ∈ [0x18#8, 0x40#8, 0x48#8, 0x50#8, 0x58#8, 0x80#8, 0x88#8, 0x90#8, 0x98#8],
      off = offsetOf .result ∨ (∃ k, off = offsetOf (.dout k)) ∨ ∃ k, off = offsetOf (.modulus k) := by decide

/-- Settles O14: an unmapped offset names no register, and a write to a read-only one returns the state it finds. -/
theorem unmappedAndReadOnlyOffsets : Obligations.UnmappedAndReadOnlyOffsets := by
  refine ⟨fun s off rest hoff hun => ⟨fun ha => ?_, fun w ha => ?_⟩, fun s off w rest hro ha => ?_,
    fun s => readWindow_offsetOf s .cmd⟩
  · rw [step_of_read hoff ha, readWindow_of_unmapped s hun]
  · rw [step_of_write hoff ha, writeWindow_of_unmapped _ w hun]
  · obtain rfl | ⟨k, rfl⟩ | ⟨k, rfl⟩ := readOnly_offset_cases off hro
    · exact step_of_hostW (r := .result) ha
    · exact step_of_hostW (r := .dout k) ha
    · exact step_of_hostW (r := .modulus k) ha

/-! ## Undefined accesses (R42) -/

theorem accessDefined_eq_true_iff {width : Nat} {off : BitVec 8} :
    accessDefined width off = true ↔ width = 8 ∧ off.toNat % 8 = 0 := by
  rw [accessDefined, Bool.and_eq_true, decide_eq_true_iff, decide_eq_true_iff]

/-- Settles O16: R41's test fails on such an access, so its turn is the refusal. -/
theorem undefinedAccessIsRefused : Obligations.UndefinedAccessIsRefused := by
  intro s width off w rest hbad
  have hundef : ¬ accessDefined width off = true := by
    rw [accessDefined_eq_true_iff]
    exact not_and_or.mpr hbad
  constructor <;> intro ha
  · simp only [step, turn, ha, hostRead, if_neg hundef]
  · simp only [step, turn, ha, hostWrite, if_neg hundef]

/-! ## Host addresses (R38) -/

theorem dvd_mmioBase : 256 ∣ mmioBase := Nat.dvd_mul_right 256 mmioPage

theorem windowOffset_isSome_iff (a : Nat) :
    (windowOffset a).isSome = true ↔ mmioBase ≤ a ∧ a < mmioBase + 256 := by
  unfold windowOffset
  split
  · next hin => exact iff_of_true rfl hin
  · next hout => exact iff_of_false Bool.false_ne_true hout

theorem windowOffset_hostAddress (off : BitVec 8) : windowOffset (hostAddress off) = some off := by
  have hin : mmioBase ≤ mmioBase + off.toNat ∧ mmioBase + off.toNat < mmioBase + 256 :=
    ⟨Nat.le_add_right _ _, Nat.add_lt_add_left off.isLt _⟩
  rw [windowOffset, hostAddress, if_pos hin, Nat.add_sub_cancel_left, BitVec.ofNat_toNat, BitVec.setWidth_eq]

/-- Settles O18: the base is 256 times the page number, and an offset is the distance of its address from the base. -/
theorem windowIsAddressedFromMmioBase : Obligations.WindowIsAddressedFromMmioBase :=
  ⟨dvd_mmioBase, fun off => ⟨rfl, windowOffset_hostAddress off⟩, windowOffset_isSome_iff⟩

end Sys2Proof.Machine
end

section
/-! PROOFS. The 32-byte encoding and its decoding (R47), and the conversion to Montgomery form and back (R90). -/

namespace Sys2Proof.Machine
open Sys2Proof Sys2Proof.Config

/-! ## Bytes, most significant first (R47) -/

/-- Byte n of a value, shifted in below the n bytes above it, gives its n + 1 top bytes. -/
theorem shiftIn_byte (v : Elem) {n : Nat} (hn : n < 32) :
    (v >>> (256 - 8 * n)) <<< 8 ||| (v.extractLsb' (248 - 8 * n) 8).setWidth 256 = v >>> (256 - 8 * (n + 1)) := by
  apply BitVec.eq_of_getLsbD_eq
  intro i hi
  simp only [BitVec.getLsbD_or, BitVec.getLsbD_shiftLeft, BitVec.getLsbD_ushiftRight, BitVec.getLsbD_setWidth,
    BitVec.getLsbD_extractLsb', hi, decide_true, Bool.true_and]
  by_cases hlow : i < 8
  · have hbit : 248 - 8 * n + i = 256 - 8 * (n + 1) + i := by omega
    simp [hlow, hbit]
  · have hbit : 256 - 8 * n + (i - 8) = 256 - 8 * (n + 1) + i := by omega
    simp [hlow, hbit]

/-- The first n bytes of the encoding decode to the top 8n bits. -/
theorem decodeBytes_range_map (v : Elem) {n : Nat} (hn : n ≤ 32) :
    decodeBytes ((List.range n).map fun j => v.extractLsb' (248 - 8 * j) 8) = v >>> (256 - 8 * n) := by
  induction n with
  | zero => exact (BitVec.ushiftRight_eq_zero (by decide)).symm
  | succ n ih =>
    have ih := ih (by omega)
    rw [decodeBytes] at ih
    rw [decodeBytes, List.range_succ, List.map_append, List.foldl_append, ih]
    exact shiftIn_byte v hn

theorem decodeBytes_encodeBytes (v : Elem) : decodeBytes (encodeBytes v) = v :=
  (decodeBytes_range_map v le_rfl).trans (BitVec.ushiftRight_zero v)

theorem length_encodeBytes (v : Elem) : (encodeBytes v).length = 32 := by
  rw [encodeBytes, List.length_map, List.length_range]

theorem encodeBytes_getElem? (v : Elem) {j : Nat} (hj : j < 32) :
    (encodeBytes v)[j]? = some (v.extractLsb' (248 - 8 * j) 8) := by
  rw [encodeBytes, List.getElem?_map, List.getElem?_range hj, Option.map_some]

/-! ## To Montgomery form and back (R90) -/

theorem reg_mont (v : Nat) : reg (mont v) = v % q := by
  have h : mont v * rInv ≡ v [MOD q] := by
    calc mont v * rInv ≡ v * R * rInv [MOD q] := (mont_modEq v).mul_right rInv
      _ = v * (R * rInv) := Nat.mul_assoc v R rInv
      _ ≡ v * 1 [MOD q] := R_mul_rInv_modEq.mul_left v
      _ = v := Nat.mul_one v
  exact h

theorem fromMont_toMont {x : Nat} (hx : x < R) : fromMont (toMont x) = x % q := by
  rw [toMont_eq hx, fromMont_eq (mont_lt x), reg_mont]

/-- Settles O59: decoding shifts the bytes in by induction on their number, and STR undoes LDR modulo q. -/
theorem byteEncodingRoundTrips : Obligations.ByteEncodingRoundTrips :=
  ⟨fun v => ⟨length_encodeBytes v, decodeBytes_encodeBytes v⟩, fun v _ hj => encodeBytes_getElem? v hj,
    fun _ hv => (fromMont_toMont (hv.trans q_lt_R)).trans (Nat.mod_eq_of_lt hv)⟩

end Sys2Proof.Machine
end

section
/-! PROOFS. The command word: its fields and the word they make, and the decoder against the encoder on the bits that a
command uses (R59 - R67). -/

namespace Sys2Proof
open Machine

/-! ## Fields and word (R59) -/

@[simp] theorem fieldsOf_wordOf (x : Fields) : fieldsOf (wordOf x) = x := by
  obtain ⟨opc, rd, rs1, rs2, rsv, imm⟩ := x
  simp only [fieldsOf, Fields.mk.injEq]
  refine ⟨?_, ?_, ?_, ?_, ?_, ?_⟩ <;>
  · apply BitVec.eq_of_getLsbD_eq
    intro i hi
    simp only [wordOf, BitVec.getLsbD_extractLsb', BitVec.getLsbD_or, BitVec.getLsbD_shiftLeft, BitVec.getLsbD_setWidth]
    interval_cases i <;> simp

@[simp] theorem wordOf_fieldsOf (w : Word) : wordOf (fieldsOf w) = w := by
  apply BitVec.eq_of_getLsbD_eq
  intro i hi
  simp only [wordOf, fieldsOf, BitVec.getLsbD_extractLsb', BitVec.getLsbD_or, BitVec.getLsbD_shiftLeft,
    BitVec.getLsbD_setWidth]
  interval_cases i <;> simp

theorem fieldsOf_injective : Function.Injective fieldsOf := Function.LeftInverse.injective wordOf_fieldsOf

/-- The union of R59, which leaves RSV out, is the word of the fields with RSV = 0. -/
theorem wordOf_rsv_zero (opc : BitVec 8) (rd rs1 rs2 : BitVec 4) (imm : BitVec 32) :
    wordOf ⟨opc, rd, rs1, rs2, 0#12, imm⟩ = opc.setWidth 64 ||| rd.setWidth 64 <<< 8 ||| rs1.setWidth 64 <<< 12 |||
      rs2.setWidth 64 <<< 16 ||| imm.setWidth 64 <<< 32 := by
  simp [wordOf]

/-- Settles O4: the fields are the bits by definition, and fields and word are inverse to each other. -/
theorem commandWordIsItsFieldsShiftedTogether : Obligations.CommandWordIsItsFieldsShiftedTogether := by
  refine ⟨fun w => ⟨rfl, rfl, rfl, rfl, rfl, rfl, wordOf_fieldsOf w⟩, fun opc rd rs1 rs2 imm => ?_⟩
  rw [← wordOf_rsv_zero, fieldsOf_wordOf]

/-! ## The fields that a command uses (R63) -/

/-- The bitwise conjunction, field by field. -/
def Fields.and (x y : Fields) : Fields where
  opc := x.opc &&& y.opc
  rd := x.rd &&& y.rd
  rs1 := x.rs1 &&& y.rs1
  rs2 := x.rs2 &&& y.rs2
  rsv := x.rsv &&& y.rsv
  imm := x.imm &&& y.imm

theorem fieldsOf_and (w m : Word) : fieldsOf (w &&& m) = (fieldsOf w).and (fieldsOf m) := by
  simp only [fieldsOf, Fields.and, BitVec.extractLsb'_and]

/-- Every bit of every field. -/
def allFields : Fields := ⟨.allOnes 8, .allOnes 4, .allOnes 4, .allOnes 4, .allOnes 12, .allOnes 32⟩

/-- The fields with RSV and those outside the command's column "uses" cleared (R63, R64). -/
def usedFields (x : Fields) : Instr → Fields
  | .nop => ⟨x.opc, 0#4, 0#4, 0#4, 0#12, 0#32⟩
  | .ld _ | .ldr _ | .ldu64 _ | .zero _ | .one _ => ⟨x.opc, x.rd, 0#4, 0#4, 0#12, 0#32⟩
  | .st _ | .str _ | .leg _ => ⟨x.opc, 0#4, x.rs1, 0#4, 0#12, 0#32⟩
  | .mov _ _ | .dbl _ _ | .neg _ _ | .halve _ _ | .sqr _ _ | .tomont _ _ | .frommont _ _
  | .exp _ _ | .inv _ _ | .sqrt _ _ => ⟨x.opc, x.rd, x.rs1, 0#4, 0#12, 0#32⟩
  | .add _ _ _ | .sub _ _ _ | .mul _ _ _ | .div _ _ _ => ⟨x.opc, x.rd, x.rs1, x.rs2, 0#12, 0#32⟩
  | .mulc _ _ _ | .binv _ _ _ => ⟨x.opc, x.rd, x.rs1, 0#4, 0#12, x.imm⟩
  | .cmp _ _ => ⟨x.opc, 0#4, x.rs1, x.rs2, 0#12, 0#32⟩

theorem fieldsOf_usedMask (i : Instr) : fieldsOf (usedMask i) = usedFields allFields i := by
  cases i <;>
  · simp only [usedMask, usedFields, allFields]
    decide

theorem and_usedFields_allFields (x : Fields) (i : Instr) : x.and (usedFields allFields i) = usedFields x i := by
  cases i <;> simp only [Fields.and, usedFields, allFields, BitVec.and_allOnes, BitVec.and_zero]

theorem fieldsOf_and_usedMask (w : Word) (i : Instr) : fieldsOf (w &&& usedMask i) = usedFields (fieldsOf w) i := by
  rw [fieldsOf_and, fieldsOf_usedMask, and_usedFields_allFields]

theorem usedFields_opc (x : Fields) (i : Instr) : (usedFields x i).opc = x.opc := by
  cases i <;> rfl

theorem encodedFields_opc (i : Instr) : (encodedFields i).opc = opcodeOf i := by
  cases i <;> rfl

theorem encodedFields_rsv (i : Instr) : (encodedFields i).rsv = 0#12 := by
  cases i <;> rfl

theorem usedFields_encodedFields (i : Instr) : usedFields (encodedFields i) i = encodedFields i := by
  cases i <;> rfl

/-! ## The opcode map and the decoder (R64, R65) -/

/-- The opcode map selects a command exactly when the fields that it uses are those of its word. -/
theorem commandOf_eq_some_iff {x : Fields} {i : Instr} : commandOf x = some i ↔ usedFields x i = encodedFields i := by
  constructor
  · intro h
    unfold commandOf at h
    split at h <;> cases h
    all_goals next hopc => simp only [usedFields, encodedFields, opcodeOf, hopc, bitsOf, regOf]
  · intro h
    cases i <;>
    · simp only [usedFields, encodedFields, opcodeOf, Fields.mk.injEq] at h
      simp [commandOf, h, regOf, bitsOf]

theorem commandOf_opc {x : Fields} {i : Instr} (h : commandOf x = some i) : x.opc = opcodeOf i := by
  rw [← usedFields_opc x i, commandOf_eq_some_iff.1 h, encodedFields_opc]

theorem opcodeOf_mem_opcodeMap (i : Instr) : opcodeOf i ∈ opcodeMap := by
  cases i <;> exact of_decide_eq_true rfl

theorem exists_commandOf_iff {x : Fields} : (∃ i, commandOf x = some i) ↔ x.opc ∈ opcodeMap := by
  constructor
  · rintro ⟨i, hi⟩
    rw [commandOf_opc hi]
    exact opcodeOf_mem_opcodeMap i
  · intro hmem
    unfold commandOf
    split
    case h_27 => simp_all [opcodeMap]
    all_goals exact ⟨_, rfl⟩

theorem decode_ok_iff {w : Word} {i : Instr} :
    decode w = .ok i ↔ (fieldsOf w).rsv = 0#12 ∧ commandOf (fieldsOf w) = some i := by
  unfold decode
  split
  · next hrsv => cases commandOf (fieldsOf w) <;> simp [hrsv]
  · next hrsv => simp [hrsv]

/-- The decoder answers the command whose word is the given one on the bits that the command uses. -/
theorem decode_ok_iff_encode {w : Word} {i : Instr} :
    decode w = .ok i ↔ w.extractLsb' 20 12 = 0#12 ∧ encode i = w &&& usedMask i := by
  rw [decode_ok_iff, commandOf_eq_some_iff, ← fieldsOf_and_usedMask, eq_comm (b := encodedFields i),
    ← fieldsOf_wordOf (encodedFields i), fieldsOf_injective.eq_iff]
  rfl

/-- Settles O1: the fields of the encoded word are the encoded fields, and the opcode map takes them back. -/
theorem encodedCommandDecodesBack : Obligations.EncodedCommandDecodesBack := by
  intro i
  rw [decode_ok_iff, encode, fieldsOf_wordOf, commandOf_eq_some_iff]
  exact ⟨encodedFields_rsv i, usedFields_encodedFields i⟩

/-- Settles O2: the characterization of the decoder by the encoder, read forwards. -/
theorem decodedWordReencodesToItsUsedBits : Obligations.DecodedWordReencodesToItsUsedBits :=
  fun _ _ h => (decode_ok_iff_encode.1 h).2

/-- Settles O3: a word decodes by its used bits alone, once its RSV is 0. -/
theorem unusedFieldsAreIgnored : Obligations.UnusedFieldsAreIgnored := by
  refine ⟨fun w w' i h hagree hrsv => ?_, fun w hrsv => if_neg hrsv⟩
  obtain ⟨-, hword⟩ := decode_ok_iff_encode.1 h
  exact decode_ok_iff_encode.2 ⟨hrsv, hword.trans hagree.symm⟩

/-! ## The rows of the opcode map (R64) -/

/-- The bits that every row of the opcode map fixes: OPC and RSV. -/
theorem and_rowMask_eq_iff {w : Word} {opc : BitVec 8} :
    w &&& 0x00000000FFF000FF#64 = opc.setWidth 64 ↔ w.extractLsb' 0 8 = opc ∧ w.extractLsb' 20 12 = 0#12 := by
  have hmask : fieldsOf 0x00000000FFF000FF#64 = ⟨.allOnes 8, 0#4, 0#4, 0#4, .allOnes 12, 0#32⟩ := rfl
  have hopc : opc.setWidth 64 = wordOf ⟨opc, 0#4, 0#4, 0#4, 0#12, 0#32⟩ := by simp [wordOf_rsv_zero]
  rw [← fieldsOf_injective.eq_iff, fieldsOf_and, hmask, hopc, fieldsOf_wordOf]
  simp only [Fields.and, BitVec.and_allOnes, BitVec.and_zero, Fields.mk.injEq, true_and, and_true]
  rfl

theorem exists_decode_iff {w : Word} :
    (∃ i, decode w = .ok i) ↔ w.extractLsb' 0 8 ∈ opcodeMap ∧ w.extractLsb' 20 12 = 0#12 := by
  simp only [decode_ok_iff, exists_and_left, exists_commandOf_iff]
  exact and_comm

/-- Settles O6: the opcode map and RSV decide, and a decoded word has the OPC of its command. -/
theorem decoderSelectsTheTableRow : Obligations.DecoderSelectsTheTableRow := by
  refine ⟨fun w => exists_decode_iff, fun w i h => ?_⟩
  obtain ⟨hrsv, hcommand⟩ := decode_ok_iff.1 h
  exact and_rowMask_eq_iff.2 ⟨commandOf_opc hcommand, hrsv⟩

/-- With RSV = 0 and a row's OPC, a word decodes to what the opcode map makes of that OPC and the other fields. -/
theorem decode_of_row {w : Word} {opc : BitVec 8} {i : Instr} (hrsv : w.extractLsb' 20 12 = 0#12)
    (hrow : commandOf { fieldsOf w with opc := opc } = some i) (hopc : w.extractLsb' 0 8 = opc) : decode w = .ok i := by
  subst hopc
  exact decode_ok_iff.2 ⟨hrsv, hrow⟩

/-- Settles O5: the 26 rows of the opcode map, and the words that match one of them under the mask. -/
theorem opcodeMapSelectsTheCommand : Obligations.OpcodeMapSelectsTheCommand := by
  refine ⟨fun w rd rs1 rs2 imm hrsv hrd hrs1 hrs2 himm => ?_, fun w => ?_⟩
  · obtain rfl : rd = regOf (fieldsOf w).rd := Fin.ext hrd
    obtain rfl : rs1 = regOf (fieldsOf w).rs1 := Fin.ext hrs1
    obtain rfl : rs2 = regOf (fieldsOf w).rs2 := Fin.ext hrs2
    obtain rfl : imm = (fieldsOf w).imm := himm
    and_intros <;> exact decode_of_row hrsv rfl
  · simp only [exists_decode_iff, and_rowMask_eq_iff, exists_eq_right', ← and_assoc, exists_and_right]

end Sys2Proof
end

section
/-! PROOFS. Runs of host sequences: the steps of the DIN writes, of an issue with its WAIT, and of a read, and from them
the pseudo-commands (R68, R69). -/

namespace Sys2Proof.Machine
open Sys2Proof Sys2Proof.Config

/-! ## Running step by step -/

theorem run_succ {s t : State} {k : Nat} (h : step s = .next t) : core.run (k + 1) s = core.run k t := by
  have hstep : core.step s = .next t := h
  simp only [Host.Core.run, hstep]

theorem step_of_busy_wait {s : State} {i : Instr} {rest : List Arrival} (hb : s.busy = true)
    (ha : s.agenda = .wait :: rest) (hd : decode s.lcmd = .ok i) : step s = exec i s := by
  simp only [step, turn, ha, hb, if_true, latchedCommand, hd]

theorem step_of_idle_wait {s : State} {rest : List Arrival} (hb : s.busy = false) (ha : s.agenda = .wait :: rest) :
    step s = .next { s with agenda := rest } := by
  simp only [step, turn, ha, hb, Bool.false_eq_true, if_false]

theorem step_of_hostR {s : State} {r : WindowReg} {rest : List Arrival} (ha : s.agenda = hostR r :: rest) :
    step s = .next { s with agenda := rest, reads := s.readReg r :: s.reads } := by
  rw [step_of_read (offsetOf_aligned r) ha, readWindow_offsetOf]

/-! ## The DIN writes -/

theorem run_hostW_din {s : State} {j : Fin 4} {v : Word} {rest : List Arrival} {k : Nat}
    (ha : s.agenda = hostW (.din j) v :: rest) :
    core.run (k + 1) s = core.run k { s with agenda := rest, din := setLimbAt s.din j v } :=
  run_succ (step_of_hostW ha)

/-- The four writes leave the value in DIN. -/
theorem run_hostWriteDin {s : State} {v : Elem} {rest : List Arrival} {k : Nat}
    (ha : s.agenda = hostWriteDin v ++ rest) :
    core.run (k + 4) s = core.run k { s with agenda := rest, din := limbsOfElem v } := by
  rw [run_hostW_din (k := k + 3) ha, run_hostW_din rfl, run_hostW_din rfl, run_hostW_din rfl]
  rfl

/-! ## An issue and its WAIT -/

/-- The state after the issue of a command, with the WAIT next to come. -/
def issuedState (s : State) (i : Instr) (rest : List Arrival) : State :=
  ({ s with agenda := .wait :: rest } : State).latch (encode i)

theorem issuedState_busy (s : State) (i : Instr) (rest : List Arrival) : (issuedState s i rest).busy = true := rfl

theorem issuedState_agenda (s : State) (i : Instr) (rest : List Arrival) :
    (issuedState s i rest).agenda = .wait :: rest := rfl

theorem decode_issuedState (s : State) (i : Instr) (rest : List Arrival) : decode (issuedState s i rest).lcmd = .ok i :=
  encodedCommandDecodesBack i

theorem effectOf_issuedState (s : State) (i j : Instr) (rest : List Arrival) :
    effectOf (issuedState s i rest) j = effectOf { s with ldin := limbsValue s.din } j :=
  effectOf_congr rfl rfl rfl j

theorem issue_of_accepted {s : State} {i : Instr} (hb : s.busy = false) (hw : WellFormed i = true)
    (hld : loadsRaw i = true → (limbsValue s.din).toNat < q) : s.issue (encode i) = s.latch (encode i) := by
  have hd : decode (encode i) = .ok i := encodedCommandDecodesBack i
  have hdin : ¬ (loadsRaw i && decide ((limbsValue s.din).toNat ≥ q)) = true := by
    simpa using hld
  simp only [State.issue, hb, hd, hw, Bool.not_true, Bool.false_eq_true, if_false, if_neg hdin]

/-- Issue, completion at the WAIT, and the passing of the WAIT. -/
theorem run_hostIssue_wait {s : State} {i : Instr} {e : Effect} {rest : List Arrival} {k : Nat} (hb : s.busy = false)
    (ha : s.agenda = hostIssue i :: .wait :: rest) (hw : WellFormed i = true)
    (hld : loadsRaw i = true → (limbsValue s.din).toNat < q)
    (he : effectOf { s with ldin := limbsValue s.din } i = .ok e) :
    core.run (k + 3) s = core.run k { (e.write (issuedState s i rest)).complete with agenda := rest } := by
  have hissue : step s = .next (issuedState s i rest) := by
    rw [step_of_hostW ha, State.writeReg, issue_of_accepted (s := { s with agenda := .wait :: rest }) hb hw hld,
      issuedState]
  have hexec : step (issuedState s i rest) = .next (e.write (issuedState s i rest)).complete := by
    rw [step_of_busy_wait (issuedState_busy s i rest) (issuedState_agenda s i rest) (decode_issuedState s i rest),
      exec_eq, effectOf_issuedState, he, effectOutcome, completed]
  have hagenda : (e.write (issuedState s i rest)).complete.agenda = .wait :: rest := by cases e <;> rfl
  have hwait := step_of_idle_wait (State.complete_busy _) hagenda
  rw [run_succ (k := k + 2) hissue, run_succ (k := k + 1) hexec, run_succ (k := k) hwait]

/-- The same for a command that writes one element register. -/
theorem run_hostIssue_wait_reg {s : State} {i : Instr} {rd : Reg} {n : Nat} {rest : List Arrival} (hb : s.busy = false)
    (ha : s.agenda = hostIssue i :: .wait :: rest) (hw : WellFormed i = true)
    (hld : loadsRaw i = true → (limbsValue s.din).toNat < q)
    (he : effectOf { s with ldin := limbsValue s.din } i = .ok (.reg rd n)) :
    ∃ t : State, core.run 3 s = .next t ∧ t.agenda = rest ∧ t.busy = false ∧ t.err = s.err ∧
      t.f = s.f.set rd.val (elemOf n) :=
  ⟨_, run_hostIssue_wait (k := 0) hb ha hw hld he, rfl, rfl, rfl, rfl⟩

/-- The same after the four DIN writes of the command's operand. -/
theorem run_hostWriteDin_hostIssue_wait_reg {s : State} {v : Elem} {i : Instr} {rd : Reg} {n : Nat}
    {rest : List Arrival} (hb : s.busy = false) (ha : s.agenda = (hostWriteDin v ++ [hostIssue i, .wait]) ++ rest)
    (hw : WellFormed i = true) (hld : loadsRaw i = true → v.toNat < q)
    (he : effectOf { s with ldin := v } i = .ok (.reg rd n)) :
    ∃ t : State, core.run 7 s = .next t ∧ t.agenda = rest ∧ t.busy = false ∧ t.err = s.err ∧
      t.f = s.f.set rd.val (elemOf n) := by
  rw [List.append_assoc] at ha
  have hdin : limbsValue (limbsOfElem v) = v := limbsValue_limbsOfElem v
  rw [run_hostWriteDin (k := 3) ha]
  refine run_hostIssue_wait_reg hb rfl hw (by rwa [hdin]) ?_
  rw [hdin, ← he]
  exact effectOf_congr rfl rfl rfl i

/-! ## The pseudo-commands (R69) -/

theorem limbsValue_low (l : Limbs) : (limbsValue l).extractLsb' 0 64 = l.l0 :=
  congrArg Limbs.l0 (limbsOfElem_limbsValue l)

theorem elemOf_toNat_self (v : Elem) : elemOf v.toNat = v := by
  rw [elemOf, BitVec.ofNat_toNat, BitVec.setWidth_eq]

theorem mont_mod (v : Nat) : mont (v % q) = mont v := Nat.mod_mul_mod v R q

/-- LDU64 after a write to DIN0 loads the value written. -/
theorem effectOf_ldu64 {s : State} {v : Word} (h : s.ldin.extractLsb' 0 64 = v) (fd : Reg) :
    effectOf s (.ldu64 fd) = .ok (.reg fd (mont v.toNat)) := by
  rw [effectOf, State.latchedDin64, h, ← toMont_eq (v.isLt.trans (by decide)), toMont]

theorem effectOf_ldr (s : State) (fd : Reg) : effectOf s (.ldr fd) = .ok (.reg fd (mont (s.ldin.toNat % q))) := by
  rw [effectOf, mont_mod, ← toMont_eq s.ldin.isLt, toMont, State.latchedDin]

theorem compareResult_eq_zero_iff (a b : Nat) : compareResult a b = 0#64 ↔ a = b := by
  unfold compareResult resultMinusOne resultZero resultPlusOne
  split
  · next hlt => simp [hlt.ne]
  · split
    · next heq => simp [heq]
    · next hne => simp [hne]

/-- CMP's RESULT is 0 exactly for equal registers (R111). -/
theorem compareResult_fromMont_eq_zero_iff {x y : Nat} (hx : x < q) (hy : y < q) :
    compareResult (fromMont x) (fromMont y) = 0#64 ↔ x = y := by
  rw [compareResult_eq_zero_iff, fromMont_eq hx, fromMont_eq hy]
  refine ⟨fun h => ?_, congrArg reg⟩
  rw [← mont_reg hx, h, mont_reg hy]

/-- Settles O58: each expansion is its DIN writes, then an issue with its WAIT; EQ reads RESULT afterwards. -/
theorem pseudoCommandsRunTheirExpansions : Obligations.PseudoCommandsRunTheirExpansions := by
  intro s rest hb
  refine ⟨fun fd v ha => ?_, fun fd v ha => ?_, fun fd v hv ha => ?_, fun fd fs1 e ha => ?_, fun fs1 fs2 h1 h2 ha => ?_⟩
  · rw [run_hostW_din (k := 3) ha]
    exact run_hostIssue_wait_reg hb rfl rfl nofun (effectOf_ldu64 (limbsValue_low _) fd)
  · exact run_hostWriteDin_hostIssue_wait_reg hb ha rfl nofun (effectOf_ldr _ fd)
  · have h := run_hostWriteDin_hostIssue_wait_reg (n := v.toNat) hb ha rfl (fun _ => hv) rfl
    rwa [elemOf_toNat_self] at h
  · exact run_hostWriteDin_hostIssue_wait_reg hb ha rfl nofun rfl
  · have heffect : effectOf { s with ldin := limbsValue s.din } (.cmp fs1 fs2) =
        .ok (.result (compareResult (fromMont (s.reg fs1)) (fromMont (s.reg fs2)))) := rfl
    rw [run_hostIssue_wait (k := 1) hb ha rfl nofun heffect, run_succ (step_of_hostR rfl)]
    exact ⟨_, _, rfl, rfl, rfl, rfl, rfl, compareResult_fromMont_eq_zero_iff h1 h2⟩

end Sys2Proof.Machine
end

section
/-! PROOFS. The data movement commands: NOP, LD, LDR, LDU64, ST, STR, ZERO, ONE and MOV (R70 - R78). -/

namespace Sys2Proof.Machine
open Sys2Proof Sys2Proof.Config

/-! ## A raw load at issue (R71) -/

/-- A command that loads DIN raw is refused when DIN is not below q: the last test of the issue (R112). -/
theorem issue_of_noncanonical {s : State} {i : Instr} (hb : s.busy = false) (hw : WellFormed i = true)
    (hld : loadsRaw i = true) (hdin : (limbsValue s.din).toNat ≥ q) : s.issue (encode i) = s.refuse .noncanonical := by
  have hd : decode (encode i) = .ok i := encodedCommandDecodesBack i
  have hraw : (loadsRaw i && decide ((limbsValue s.din).toNat ≥ q)) = true := by
    rw [hld, decide_eq_true hdin, Bool.and_self]
  simp only [State.issue, hb, hd, hw, Bool.not_true, Bool.false_eq_true, if_false, if_pos hraw]

theorem refuse_errCode_of_no_error {s : State} (h : s.err = false) (c : ErrCode) : (s.refuse c).errCode = c := by
  simp only [State.refuse, State.recordError, h, Bool.false_eq_true, if_false]

/-- Settles O26: at issue DIN is at q or above and NONCANONICAL is refused, or below q and every test passes. -/
theorem loadRawStoresCanonicalDin : Obligations.LoadRawStoresCanonicalDin := by
  refine ⟨fun s rd => ?_, fun s rd hb hdin => ?_, fun s rd hb hdin => ?_⟩
  · rw [exec_ld, completed_setReg, State.latchedDin, elemOf_toNat_self]
  · rw [issue_of_noncanonical (i := .ld rd) hb rfl rfl hdin]
    exact ⟨rfl, hb, rfl, fun herr => refuse_errCode_of_no_error herr .noncanonical⟩
  · exact issue_of_accepted hb rfl fun _ => hdin

/-! ## Loads into Montgomery form (R72, R73) -/

theorem latchedDin64_eq (s : State) : s.latchedDin64 = s.ldin.toNat % 2 ^ 64 := by
  rw [State.latchedDin64, BitVec.extractLsb'_toNat, Nat.shiftRight_zero]

/-- A completion that writes a value's Montgomery form, MontMul(x, RSQ) (R72, R90). -/
theorem completed_setReg_montMul_RSQ (s : State) (rd : Reg) {x : Nat} (hx : x < R) :
    completed (s.setReg rd (montMul x RSQ)) =
      .next { s with f := s.f.set rd.val (elemOf (mont x)), busy := false, done := true } := by
  rw [completed_setReg, ← toMont, toMont_eq hx]

/-- Settles O27: both operands are below R, so MontMul by RSQ answers their Montgomery form; reducing modulo q first
changes nothing (`mont_mod`). -/
theorem loadConvertsToMontgomeryForm : Obligations.LoadConvertsToMontgomeryForm := by
  intro s rd
  constructor
  · rw [exec_ldr, completed_setReg_montMul_RSQ s rd (latchedDin_lt s), State.latchedDin, ← mont_mod, mont, elemOf]
  · rw [exec_ldu64, completed_setReg_montMul_RSQ s rd (latchedDin64_lt s), latchedDin64_eq, mont, elemOf]

/-! ## Stores to DOUT (R74, R75) -/

/-- Settles O28: the stored value's limbs, put together again, are the stored value. -/
theorem storeRawWritesDout : Obligations.StoreRawWritesDout := by
  intro s rs1
  refine ⟨limbsOfElem s.f[rs1.val], ?_, rfl, rfl, rfl, rfl, fun hlt => ?_⟩
  · rw [exec_st, completed_setDout, elemOf_reg]
  · rwa [limbsValue_limbsOfElem]

/-- Settles O29: FromMont of a register below q is its regular value, which fits in DOUT. -/
theorem storeRegularWritesTheRegularValue : Obligations.StoreRegularWritesTheRegularValue := by
  refine ⟨fun s rs1 hlt => ⟨limbsOfElem (elemOf (fromMont (s.reg rs1))), ?_, ?_⟩, R_mul_rInv, by decide⟩
  · rw [exec_str, completed_setDout]
  · have hfits : fromMont (s.reg rs1) < 2 ^ 256 := (fromMont_lt hlt).trans_le q_le_two_pow_256
    rw [limbsValue_limbsOfElem, elemOf_toNat hfits, fromMont_eq hlt, reg]

/-! ## NOP, the constants and MOV (R70, R76 - R78) -/

theorem encode_nop : encode .nop = 0#64 := by decide

/-- Settles O25: each command's completion written out; the zero word is NOP's encoding, so it decodes to NOP. -/
theorem moveAndConstantCommandsComplete : Obligations.MoveAndConstantCommandsComplete := by
  intro s rd rs1
  refine ⟨?_, ?_, ?_, ?_, encode_nop, ?_⟩
  · rw [exec_nop, completed, State.complete]
  · rw [exec_zero, completed_setReg, elemOf]
  · rw [exec_one, completed_setReg, elemOf, ONE]
  · rw [exec_mov, completed_setReg, elemOf_reg]
  · rw [← encode_nop]
    exact encodedCommandDecodesBack .nop

end Sys2Proof.Machine
end

section
/-! PROOFS. The modular adder and subtractor: ADD, DBL, SUB, NEG and HALVE (R81 - R85). -/

namespace Sys2Proof.Machine
open Sys2Proof Sys2Proof.Config

/-! ## ADD and DBL (R81, R82) -/

theorem modAdd_self_eq {x : Nat} (hx : x < q) : modAdd x x = 2 * x % q := by
  rw [modAdd_eq hx hx, two_mul]

/-- "ModAdd(Mont(a), Mont(b)) = Mont(a + b)" (R81). -/
theorem modAdd_mont (a b : Nat) : modAdd (mont a) (mont b) = mont (a + b) := by
  have hsum : mont a + mont b ≡ (a + b) * R [MOD q] := by
    rw [Nat.add_mul]
    exact (mont_modEq a).add (mont_modEq b)
  rw [modAdd_eq (mont_lt a) (mont_lt b)]
  exact hsum

/-- Settles O30: ModAdd of values below q is addition modulo q, and Mont is additive. -/
theorem addAndDoubleAreModular : Obligations.AddAndDoubleAreModular := by
  refine ⟨fun s rd rs1 rs2 hx hy => ?_, fun s rd rs1 hx => ?_, modAdd_mont⟩
  · rw [exec_add, completed_setReg, modAdd_eq hx hy, elemOf]
  · rw [exec_dbl, completed_setReg, modAdd_self_eq hx, elemOf]

/-! ## SUB and NEG (R83, R84) -/

/-- Settles O31: ModSub of values below q is subtraction modulo q, and ModNeg is R84's case split itself. -/
theorem subtractAndNegateAreModular : Obligations.SubtractAndNegateAreModular := by
  refine ⟨fun s rd rs1 rs2 hx hy => ?_, fun s rd rs1 _ => ?_⟩
  · rw [exec_sub, completed_setReg, modSub_eq hx hy, elemOf]
  · rw [exec_neg, completed_setReg, modNeg, elemOf]

/-! ## HALVE (R85) -/

theorem two_mul_modHalve_modEq (x : Nat) : 2 * modHalve x ≡ x [MOD q] := by
  rw [two_mul_modHalve]
  split
  · exact Nat.add_modEq_right
  · rfl

/-- A congruence may be freed of a factor 2, since q is odd. -/
theorem modEq_of_two_mul {a b : Nat} (h : 2 * a ≡ 2 * b [MOD q]) : a ≡ b [MOD q] :=
  Nat.ModEq.cancel_left_of_coprime (by decide : Nat.gcd q 2 = 1) h

/-- The half is the only value below q whose double is the operand modulo q. -/
theorem modHalve_eq_of_two_mul {x h : Nat} (hx : x < q) (hh : h < q) (h2 : 2 * h ≡ x [MOD q]) : modHalve x = h :=
  (modEq_of_two_mul ((two_mul_modHalve_modEq x).trans h2.symm)).eq_of_lt_of_lt (modHalve_lt hx) hh

theorem modHalve_mont (a : Nat) : modHalve (mont (2 * a)) = mont a := by
  refine modHalve_eq_of_two_mul (mont_lt _) (mont_lt a) ?_
  calc 2 * mont a ≡ 2 * (a * R) [MOD q] := (mont_modEq a).mul_left 2
    _ = 2 * a * R := (Nat.mul_assoc 2 a R).symm
    _ ≡ mont (2 * a) [MOD q] := (mont_modEq (2 * a)).symm

theorem two_mul_modHalve_mod {x : Nat} (hx : x < q) : 2 * modHalve x % q = x :=
  Eq.trans (two_mul_modHalve_modEq x) (Nat.mod_eq_of_lt hx)

/-- Settles O32: twice ModHalve of the operand is the operand modulo q, and q is odd, so the half is unique. -/
theorem halveHalvesModuloQ : Obligations.HalveHalvesModuloQ := by
  refine ⟨fun s rd rs1 hx => ⟨modHalve (s.reg rs1), modHalve_lt hx, two_mul_modHalve_mod hx, ?_⟩, modHalve_mont⟩
  rw [exec_halve, completed_setReg, elemOf]

end Sys2Proof.Machine
end

section
/-! PROOFS. Inverse (R100): the loop invariant of R101, the measure of R102, and the value they give. -/

namespace Sys2Proof.Machine
open Sys2Proof Sys2Proof.Config

/-! ## Cofactors (R101) -/

/-- `s` is the cofactor of `v` in the loop of Inverse(x): s·x ≡ v·RSQ modulo q, and s is below q (R101). -/
def IsCofactor (x v s : Nat) : Prop := s < q ∧ s * x ≡ v * RSQ [MOD q]

theorem isCofactor_q (x : Nat) : IsCofactor x q 0 := by
  refine ⟨q_pos, ?_⟩
  rw [Nat.zero_mul]
  exact (Nat.modEq_zero_iff_dvd.2 (Nat.dvd_mul_right q RSQ)).symm

theorem isCofactor_self (x : Nat) : IsCofactor x x RSQ := ⟨RSQ_lt, by rw [Nat.mul_comm]⟩

/-- Halving an even value halves its cofactor modulo q. -/
theorem IsCofactor.halve {x v s : Nat} (h : IsCofactor x v s) (hv : v % 2 = 0) :
    IsCofactor x (v / 2) (modHalve s) := by
  obtain ⟨hs, hcong⟩ := h
  refine ⟨modHalve_lt hs, modEq_of_two_mul ?_⟩
  calc 2 * (modHalve s * x) = 2 * modHalve s * x := (Nat.mul_assoc _ _ _).symm
    _ ≡ s * x [MOD q] := (two_mul_modHalve_modEq s).mul_right x
    _ ≡ v * RSQ [MOD q] := hcong
    _ = 2 * (v / 2 * RSQ) := by rw [← Nat.mul_assoc, Nat.mul_div_cancel' (Nat.dvd_of_mod_eq_zero hv)]

/-- Subtracting a value subtracts its cofactor modulo q. -/
theorem IsCofactor.sub {x v w s r : Nat} (hv : IsCofactor x v s) (hw : IsCofactor x w r) (hle : w ≤ v) :
    IsCofactor x (v - w) (modSub s r) := by
  obtain ⟨hs, hsv⟩ := hv
  obtain ⟨hr, hrw⟩ := hw
  have hadd : modSub s r + r ≡ s [MOD q] := by
    unfold modSub
    split
    · rw [show s + q - r + r = s + q by omega]
      exact Nat.add_modEq_right
    · rw [Nat.sub_add_cancel (by omega)]
  refine ⟨modSub_lt hs hr, Nat.ModEq.add_right_cancel hrw ?_⟩
  calc modSub s r * x + r * x = (modSub s r + r) * x := (Nat.add_mul _ _ _).symm
    _ ≡ s * x [MOD q] := hadd.mul_right x
    _ ≡ v * RSQ [MOD q] := hsv
    _ = (v - w) * RSQ + w * RSQ := by rw [← Nat.add_mul, Nat.sub_add_cancel hle]

/-! ## Stripping the twos (R100) -/

theorem stripTwos_even {v : Nat} (hv : v % 2 = 0) (s n : Nat) :
    stripTwos v s (n + 1) = stripTwos (v / 2) (modHalve s) n := by
  rw [stripTwos, if_pos hv, Nat.shiftRight_one]

theorem stripTwos_odd {v : Nat} (hv : v % 2 = 1) (s n : Nat) : stripTwos v s n = (v, s) := by
  cases n with
  | zero => rfl
  | succ n => rw [stripTwos, if_neg (by omega)]

/-- Stripping divides by a power of 2, whatever the number of rounds. -/
theorem stripTwos_dvd (n : Nat) : ∀ v s : Nat, (stripTwos v s n).1 ∣ v := by
  induction n with
  | zero => intro v s; exact dvd_rfl
  | succ n ih =>
    intro v s
    obtain hv | hv := Nat.mod_two_eq_zero_or_one v
    · rw [stripTwos_even hv]
      exact (ih _ _).trans (Nat.div_dvd_of_dvd (Nat.dvd_of_mod_eq_zero hv))
    · rw [stripTwos_odd hv]

/-- As many rounds as the value has bits leave it odd. -/
theorem stripTwos_fst_odd (n : Nat) : ∀ {v : Nat} (s : Nat), 0 < v → v < 2 ^ n → (stripTwos v s n).1 % 2 = 1 := by
  induction n with
  | zero => intro v s h0 h1; omega
  | succ n ih =>
    intro v s h0 hlt
    obtain hv | hv := Nat.mod_two_eq_zero_or_one v
    · rw [stripTwos_even hv]
      exact ih _ (by omega) (by omega)
    · rwa [stripTwos_odd hv]

theorem stripTwos_isCofactor {x : Nat} (n : Nat) : ∀ {v s : Nat}, IsCofactor x v s →
    IsCofactor x (stripTwos v s n).1 (stripTwos v s n).2 := by
  induction n with
  | zero => intro v s h; exact h
  | succ n ih =>
    intro v s h
    obtain hv | hv := Nat.mod_two_eq_zero_or_one v
    · rw [stripTwos_even hv]
      exact ih (h.halve hv)
    · rwa [stripTwos_odd hv]

/-! ## The two halves of a pass (R100) -/

/-- The state of a pass at its comparison. -/
def stripBoth (g : GcdState) : GcdState :=
  ⟨(stripTwos g.u g.r 256).1, (stripTwos g.v g.s 256).1, (stripTwos g.u g.r 256).2, (stripTwos g.v g.s 256).2⟩

/-- The comparison of a pass and the subtraction it selects. -/
def subtractSmaller (g : GcdState) : GcdState :=
  if g.v ≥ g.u then ⟨g.u, g.v - g.u, g.r, modSub g.s g.r⟩ else ⟨g.u - g.v, g.v, modSub g.r g.s, g.s⟩

theorem gcdPass_eq (g : GcdState) : gcdPass g = subtractSmaller (stripBoth g) := by
  rw [gcdPass, subtractSmaller, stripBoth]

/-- R101's invariant. -/
structure GcdInvariant (x : Nat) (g : GcdState) : Prop where
  u_pos : 0 < g.u
  v_pos : 0 < g.v
  u_le : g.u ≤ q
  v_le : g.v ≤ q
  coprime : Nat.Coprime g.u g.v
  cofactor_u : IsCofactor x g.u g.r
  cofactor_v : IsCofactor x g.v g.s

/-- One value is odd and not 1: the loop has not ended, and stripping cannot make both values 1. -/
def Running (g : GcdState) : Prop := (g.u % 2 = 1 ∧ g.u ≠ 1) ∨ (g.v % 2 = 1 ∧ g.v ≠ 1)

theorem lt_two_pow_256_of_le_q {v : Nat} (h : v ≤ q) : v < 2 ^ 256 := lt_of_le_of_lt h (by decide)

/-- Stripping keeps the invariant and makes both values odd. -/
theorem GcdInvariant.stripped {x : Nat} {g : GcdState} (h : GcdInvariant x g) :
    GcdInvariant x (stripBoth g) ∧ (stripBoth g).u % 2 = 1 ∧ (stripBoth g).v % 2 = 1 := by
  obtain ⟨hu0, hv0, hu, hv, hco, hcu, hcv⟩ := h
  have hdu := stripTwos_dvd 256 g.u g.r
  have hdv := stripTwos_dvd 256 g.v g.s
  exact ⟨⟨Nat.pos_of_dvd_of_pos hdu hu0, Nat.pos_of_dvd_of_pos hdv hv0, (Nat.le_of_dvd hu0 hdu).trans hu,
    (Nat.le_of_dvd hv0 hdv).trans hv, (hco.coprime_dvd_left hdu).coprime_dvd_right hdv, stripTwos_isCofactor 256 hcu,
    stripTwos_isCofactor 256 hcv⟩, stripTwos_fst_odd 256 g.r hu0 (lt_two_pow_256_of_le_q hu),
    stripTwos_fst_odd 256 g.s hv0 (lt_two_pow_256_of_le_q hv)⟩

/-- "At the comparison u ≠ v" (R101): equal coprime values are both 1, and an odd value is left as it was. -/
theorem GcdInvariant.stripped_ne {x : Nat} {g : GcdState} (h : GcdInvariant x g) (hrun : Running g) :
    (stripBoth g).u ≠ (stripBoth g).v := by
  intro heq
  obtain ⟨hinv, -, -⟩ := h.stripped
  have hone : (stripBoth g).u = 1 := by
    have hco := hinv.coprime
    rw [← heq] at hco
    exact (Nat.coprime_self _).1 hco
  obtain ⟨hodd, hne⟩ | ⟨hodd, hne⟩ := hrun
  · have hsame : (stripBoth g).u = g.u := by rw [stripBoth, stripTwos_odd hodd]
    exact hne (hsame.symm.trans hone)
  · have hsame : (stripBoth g).v = g.v := by simp only [stripBoth, stripTwos_odd hodd]
    exact hne (hsame.symm.trans (heq.symm.trans hone))

theorem subtractSmaller_of_lt {g : GcdState} (h : g.u < g.v) :
    subtractSmaller g = ⟨g.u, g.v - g.u, g.r, modSub g.s g.r⟩ := by
  rw [subtractSmaller, if_pos h.le]

theorem subtractSmaller_of_gt {g : GcdState} (h : g.v < g.u) :
    subtractSmaller g = ⟨g.u - g.v, g.v, modSub g.r g.s, g.s⟩ := by
  rw [subtractSmaller, if_neg (by omega)]

/-- Subtracting unequal values keeps the invariant. -/
theorem GcdInvariant.subtracted {x : Nat} {g : GcdState} (h : GcdInvariant x g) (hne : g.u ≠ g.v) :
    GcdInvariant x (subtractSmaller g) := by
  obtain ⟨hu0, hv0, hu, hv, hco, hcu, hcv⟩ := h
  obtain hlt | hgt := Nat.lt_or_gt_of_ne hne
  · rw [subtractSmaller_of_lt hlt]
    exact ⟨hu0, Nat.sub_pos_of_lt hlt, hu, (Nat.sub_le _ _).trans hv, (Nat.coprime_sub_self_right hlt.le).2 hco, hcu,
      hcv.sub hcu hlt.le⟩
  · rw [subtractSmaller_of_gt hgt]
    exact ⟨Nat.sub_pos_of_lt hgt, hv0, (Nat.sub_le _ _).trans hu, hv, (Nat.coprime_sub_self_left hgt.le).2 hco,
      hcu.sub hcv hgt.le, hcv⟩

/-! ## The measure (R102) -/

/-- The product of the two values without their factors 2, which every pass more than halves (R102). -/
def strippedProduct (g : GcdState) : Nat := (stripBoth g).u * (stripBoth g).v

theorem GcdInvariant.strippedProduct_pos {x : Nat} {g : GcdState} (h : GcdInvariant x g) : 0 < strippedProduct g :=
  Nat.mul_pos h.stripped.1.u_pos h.stripped.1.v_pos

theorem stripTwos_fst_le {v : Nat} (hv : 0 < v) (s n : Nat) : (stripTwos v s n).1 ≤ v :=
  Nat.le_of_dvd hv (stripTwos_dvd n v s)

theorem GcdInvariant.strippedProduct_le {x : Nat} {g : GcdState} (h : GcdInvariant x g) : strippedProduct g ≤ g.u * g.v :=
  Nat.mul_le_mul (stripTwos_fst_le h.u_pos g.r 256) (stripTwos_fst_le h.v_pos g.s 256)

theorem two_mul_stripTwos_fst_le {v : Nat} (h0 : 0 < v) (hv : v % 2 = 0) (s n : Nat) :
    2 * (stripTwos v s (n + 1)).1 ≤ v := by
  have hle : (stripTwos (v / 2) (modHalve s) n).1 ≤ v / 2 := stripTwos_fst_le (by omega) _ _
  rw [stripTwos_even hv]
  omega

theorem two_mul_mul_lt {a b w : Nat} (ha : 0 < a) (hw : 2 * w < b) : 2 * (a * w) < a * b := by
  rw [Nat.mul_left_comm]
  exact Nat.mul_lt_mul_of_pos_left hw ha

/-- The difference of unequal odd values is even, so a subtraction and the strip after it more than halve the product. -/
theorem strippedProduct_subtractSmaller {g : GcdState} (hu : g.u % 2 = 1) (hv : g.v % 2 = 1) (hne : g.u ≠ g.v) :
    2 * strippedProduct (subtractSmaller g) < g.u * g.v := by
  obtain hlt | hgt := Nat.lt_or_gt_of_ne hne
  · have hdiff : 2 * (stripTwos (g.v - g.u) (modSub g.s g.r) 256).1 < g.v :=
      (two_mul_stripTwos_fst_le (by omega) (by omega) _ _).trans_lt (by omega)
    rw [subtractSmaller_of_lt hlt, strippedProduct, stripBoth, stripTwos_odd hu]
    exact two_mul_mul_lt (show 0 < g.u by omega) hdiff
  · have hdiff : 2 * (stripTwos (g.u - g.v) (modSub g.r g.s) 256).1 < g.u :=
      (two_mul_stripTwos_fst_le (by omega) (by omega) _ _).trans_lt (by omega)
    rw [subtractSmaller_of_gt hgt, strippedProduct, stripBoth, stripTwos_odd hv, Nat.mul_comm _ g.v, Nat.mul_comm g.u]
    exact two_mul_mul_lt (show 0 < g.v by omega) hdiff

/-- A subtraction leaves one of the odd values, so the loop goes on unless an end test of R100 holds. -/
theorem running_subtractSmaller {g : GcdState} (hu : g.u % 2 = 1) (hv : g.v % 2 = 1) (hne : g.u ≠ g.v)
    (hu1 : (subtractSmaller g).u ≠ 1) (hv1 : (subtractSmaller g).v ≠ 1) : Running (subtractSmaller g) := by
  obtain hlt | hgt := Nat.lt_or_gt_of_ne hne
  · rw [subtractSmaller_of_lt hlt] at hu1 ⊢
    exact .inl ⟨hu, hu1⟩
  · rw [subtractSmaller_of_gt hgt] at hv1 ⊢
    exact .inr ⟨hv, hv1⟩

/-! ## The loop and Inverse (R100 - R102) -/

/-- A pass keeps the invariant and more than halves the stripped product. -/
theorem GcdInvariant.passed {x : Nat} {g : GcdState} (h : GcdInvariant x g) (hrun : Running g) :
    GcdInvariant x (gcdPass g) ∧ 2 * strippedProduct (gcdPass g) < strippedProduct g ∧
    ((gcdPass g).u ≠ 1 → (gcdPass g).v ≠ 1 → Running (gcdPass g)) := by
  obtain ⟨hinv, hu, hv⟩ := h.stripped
  have hne := h.stripped_ne hrun
  rw [gcdPass_eq]
  exact ⟨hinv.subtracted hne, strippedProduct_subtractSmaller hu hv hne, running_subtractSmaller hu hv hne⟩

/-- The loop ends within n passes where the stripped product is below 2^n (R102), with the cofactor of 1 (R101). -/
theorem gcdLoop_ends {x : Nat} (n : Nat) : ∀ {g : GcdState}, GcdInvariant x g → Running g → strippedProduct g < 2 ^ n →
    ∃ w, gcdLoop g n = some w ∧ IsCofactor x 1 w := by
  induction n with
  | zero =>
    intro g h _ hlt
    have hpos := h.strippedProduct_pos
    omega
  | succ n ih =>
    intro g h hrun hlt
    obtain ⟨hinv, hless, hgo⟩ := h.passed hrun
    rw [gcdLoop]
    generalize gcdPass g = p at hinv hless hgo
    split
    · next hu1 => exact ⟨p.r, rfl, hu1 ▸ hinv.cofactor_u⟩
    · next hu1 =>
      split
      · next hv1 => exact ⟨p.s, rfl, hv1 ▸ hinv.cofactor_v⟩
      · next hv1 => exact ih hinv (hgo hu1 hv1) (by omega)

/-- The state before the first pass. -/
theorem gcdInvariant_start {x : Nat} (h0 : x ≠ 0) (hx : x < q) : GcdInvariant x ⟨q, x, 0, RSQ⟩ where
  u_pos := q_pos
  v_pos := Nat.pos_of_ne_zero h0
  u_le := le_rfl
  v_le := hx.le
  coprime := Nat.coprime_of_lt_prime h0 hx q_prime
  cofactor_u := isCofactor_q x
  cofactor_v := isCofactor_self x

theorem mul_lt_two_pow {a b m n : Nat} (ha : a < 2 ^ m) (hb : b < 2 ^ m) (h : m + m ≤ n) : a * b < 2 ^ n := by
  calc a * b < 2 ^ m * 2 ^ m := Nat.mul_lt_mul'' ha hb
    _ = 2 ^ (m + m) := (pow_add 2 m m).symm
    _ ≤ 2 ^ n := Nat.pow_le_pow_right Nat.two_pos h

theorem q_lt_two_pow : q < 2 ^ 253 := by decide

/-- For x below q and not 0 the loop ends within 506 passes, with the v below q for which v·x ≡ RSQ modulo q. -/
theorem gcdLoop_start_ends {x n : Nat} (h0 : x ≠ 0) (hx : x < q) (hn : 506 ≤ n) :
    ∃ v, gcdLoop ⟨q, x, 0, RSQ⟩ n = some v ∧ IsCofactor x 1 v := by
  have hinv := gcdInvariant_start h0 hx
  refine gcdLoop_ends n hinv (.inl ⟨q_odd, q_prime.ne_one⟩) ?_
  exact hinv.strippedProduct_le.trans_lt (mul_lt_two_pow q_lt_two_pow (hx.trans q_lt_two_pow) hn)

theorem inverse_zero : inverse 0 = some 0 := by rw [inverse, if_pos rfl]

/-- R101's value: Inverse(x) is the v below q with v·x ≡ R^2 modulo q. -/
theorem inverse_ends {x : Nat} (h0 : x ≠ 0) (hx : x < q) :
    ∃ v, inverse x = some v ∧ v < q ∧ v * x ≡ R * R [MOD q] := by
  obtain ⟨v, hv, hlt, hcong⟩ := gcdLoop_start_ends (n := 512) h0 hx (by omega)
  rw [Nat.one_mul, RSQ_eq] at hcong
  exact ⟨v, by rw [inverse, if_neg h0, hv], hlt, hcong.trans (Nat.mod_modEq _ _)⟩

end Sys2Proof.Machine
end

section
/-! PROOFS. The identities of the field operations (95_test_vectors.md 1.1). -/

namespace Sys2Proof.Machine
open Sys2Proof Sys2Proof.Config

/-! ## Addition, negation and halving -/

theorem modAdd_zero {x : Nat} (hx : x < q) : modAdd x 0 = x := by
  rw [modAdd_eq hx q_pos, Nat.add_zero, Nat.mod_eq_of_lt hx]

theorem modAdd_modNeg {x : Nat} (hx : x < q) : modAdd x (modNeg x) = 0 := by
  rw [modAdd_eq hx (modNeg_lt hx), modNeg_eq hx, Nat.add_mod_mod, Nat.add_sub_cancel' hx.le, Nat.mod_self]

theorem modHalve_modAdd_self {x : Nat} (hx : x < q) : modHalve (modAdd x x) = x := by
  rw [modAdd_self_eq hx]
  exact modHalve_eq_of_two_mul (Nat.mod_lt _ q_pos) hx (Nat.mod_modEq _ _).symm

theorem modAdd_modHalve_self {x : Nat} (hx : x < q) : modAdd (modHalve x) (modHalve x) = x := by
  rw [modAdd_self_eq (modHalve_lt hx), two_mul_modHalve_mod hx]

/-! ## Multiplication and the inverse -/

theorem mont_one : mont 1 = ONE := by rw [mont, Nat.one_mul, ONE_eq]

theorem montMul_ONE {x : Nat} (hx : x < q) : montMul x ONE = x := by
  calc montMul x ONE = montMul (mont (reg x)) (mont 1) := by rw [mont_reg hx, mont_one]
    _ = mont (reg x) := by rw [montMul_mont, Nat.mul_one]
    _ = x := mont_reg hx

/-- A product that is R^2 modulo q is ONE in Montgomery form. -/
theorem montMul_eq_ONE {x v : Nat} (hx : x < q) (hv : v < q) (h : v * x ≡ R * R [MOD q]) : montMul x v = ONE := by
  have hone : x * v * rInv ≡ R [MOD q] := by
    calc x * v * rInv = v * x * rInv := by rw [Nat.mul_comm x v]
      _ ≡ R * R * rInv [MOD q] := h.mul_right rInv
      _ = R * (R * rInv) := Nat.mul_assoc R R rInv
      _ ≡ R * 1 [MOD q] := R_mul_rInv_modEq.mul_left R
      _ = R := Nat.mul_one R
  rw [montMul_of_lt hx hv, ONE_eq]
  exact hone

/-- x times its inverse is ONE (R101). -/
theorem montMul_inverse {x : Nat} (h0 : x ≠ 0) (hx : x < q) : ∃ v, inverse x = some v ∧ montMul x v = ONE := by
  obtain ⟨v, hv, hlt, hcong⟩ := inverse_ends h0 hx
  exact ⟨v, hv, montMul_eq_ONE hx hlt hcong⟩

theorem R_sq_not_modEq_zero : ¬ R * R ≡ 0 [MOD q] := by decide

theorem inverse_inverse {x v : Nat} (hx : x < q) (h : inverse x = some v) : inverse v = some x := by
  by_cases h0 : x = 0
  · subst h0
    rw [inverse_zero] at h
    cases h
    exact inverse_zero
  · obtain ⟨v', hv', hlt, hvx⟩ := inverse_ends h0 hx
    obtain rfl : v' = v := Option.some.inj (hv'.symm.trans h)
    have hv0 : v' ≠ 0 := by
      rintro rfl
      rw [Nat.zero_mul] at hvx
      exact R_sq_not_modEq_zero hvx.symm
    obtain ⟨w, hw, hwlt, hwv⟩ := inverse_ends hv0 hlt
    have hwx : v' * w ≡ v' * x [MOD q] := by
      rw [Nat.mul_comm v' w]
      exact hwv.trans hvx.symm
    have hcancel : w ≡ x [MOD q] := Nat.ModEq.cancel_left_of_coprime (Nat.coprime_of_lt_prime hv0 hlt q_prime) hwx
    rw [hw, hcancel.eq_of_lt_of_lt hwlt hx]

/-- Settles O60: each identity is that of its primitive; the two of the inverse rest on R101's value, which is unique
modulo the prime q. -/
theorem fieldIdentitiesHold : Obligations.FieldIdentitiesHold := fun _ hx =>
  ⟨modAdd_zero hx, montMul_ONE hx, modAdd_modNeg hx, modHalve_modAdd_self hx, modAdd_modHalve_self hx,
    fun h0 => montMul_inverse h0 hx, fun _ h => inverse_inverse hx h⟩

end Sys2Proof.Machine
end

section
/-! PROOFS. The CIOS limb loop against the value of R87: what a row of limb products, a round and the loop add up to
(R86 - R88). -/

namespace Sys2Proof.Machine
open Sys2Proof Sys2Proof.Config

/-! ## Digits in base 2^64 (R9) -/

theorem digitsValue_cons (d : Nat) (ds : List Nat) : digitsValue (d :: ds) = d + W * digitsValue ds := rfl

theorem digitsValue_append_singleton (ds : List Nat) (d : Nat) :
    digitsValue (ds ++ [d]) = digitsValue ds + W ^ ds.length * d := by
  induction ds with
  | nil => simp [digitsValue]
  | cons e es ih =>
    rw [List.cons_append, digitsValue_cons, ih, digitsValue_cons, List.length_cons]
    ring

theorem W_pow_four : W ^ 4 = R := by decide

theorem digitsValue_qLimbs : digitsValue qLimbs = q := by decide

/-- Digit by digit, the remainder of x is put back below its quotient. -/
theorem digitsValue_limbsOf {x : Nat} (hx : x < R) : digitsValue (limbsOf x) = x := by
  have hlast : x / (W * W * W) < W := by
    rw [Nat.div_lt_iff_lt_mul (by decide), show W * (W * W * W) = R by decide]
    exact hx
  simp only [limbsOf, digitsValue, Nat.mul_zero, Nat.add_zero, Nat.mod_eq_of_lt hlast]
  rw [← Nat.div_div_eq_div_mul x (W * W) W, Nat.mod_add_div, ← Nat.div_div_eq_div_mul x W W, Nat.mod_add_div,
    Nat.mod_add_div]

/-! ## A row of limb products (R86) -/

theorem length_carryChain_fst (es : List Nat) : ∀ c, (carryChain c es).1.length = es.length := by
  induction es with
  | nil => intro c; rfl
  | cons e es ih => intro c; rw [carryChain, List.length_cons, ih, List.length_cons]

/-- Carrying keeps the value: what leaves a digit enters the next one. -/
theorem carryChain_value (es : List Nat) : ∀ c,
    digitsValue (carryChain c es).1 + W ^ es.length * (carryChain c es).2 = digitsValue es + c := by
  induction es with
  | nil => intro c; simp [carryChain, digitsValue]
  | cons e es ih =>
    intro c
    have hrest := ih ((e + c) / W)
    have hdigit := Nat.mod_add_div (e + c) W
    rw [carryChain, digitsValue_cons, digitsValue_cons, List.length_cons]
    linear_combination hdigit + W * hrest

theorem digitsValue_zipWith_mulAdd (x : Nat) (ts : List Nat) : ∀ ys : List Nat, ts.length = ys.length →
    digitsValue (List.zipWith (fun t y => t + x * y) ts ys) = digitsValue ts + x * digitsValue ys := by
  induction ts with
  | nil =>
    intro ys hlen
    obtain rfl : ys = [] := List.length_eq_zero_iff.1 hlen.symm
    rfl
  | cons t ts ih =>
    intro ys hlen
    cases ys with
    | nil => cases hlen
    | cons y ys =>
      rw [List.zipWith_cons_cons, digitsValue_cons, ih ys (Nat.succ.inj hlen), digitsValue_cons, digitsValue_cons]
      ring

/-- The inner loop of a round: the digits `ts` and `x` times the digits `ys`, with the last carry. -/
def mulAddRow (ts : List Nat) (x : Nat) (ys : List Nat) : List Nat × Nat :=
  carryChain 0 (List.zipWith (fun t y => t + x * y) ts ys)

theorem length_mulAddRow_fst {ts ys : List Nat} (hlen : ts.length = ys.length) (x : Nat) :
    (mulAddRow ts x ys).1.length = ts.length := by
  rw [mulAddRow, length_carryChain_fst, List.length_zipWith, hlen, Nat.min_self]

theorem mulAddRow_value {ts ys : List Nat} (hlen : ts.length = ys.length) (x : Nat) :
    digitsValue (mulAddRow ts x ys).1 + W ^ ts.length * (mulAddRow ts x ys).2 =
      digitsValue ts + x * digitsValue ys := by
  have hcarry := carryChain_value (List.zipWith (fun t y => t + x * y) ts ys) 0
  rw [List.length_zipWith, ← hlen, Nat.min_self, digitsValue_zipWith_mulAdd x ts ys hlen] at hcarry
  exact hcarry

/-! ## The reduction half of a round (R86) -/

/-- The reduction multiplier of a round whose lowest limb is `t`: it makes the low word of t + m·q 0. -/
def reductionMultiplier (t : Nat) : Nat := t * QINV % W

theorem reductionMultiplier_lt (t : Nat) : reductionMultiplier t < W := Nat.mod_lt _ (by decide)

/-- "low word is 0 by the choice of m" (R86), for a lowest limb `k` of the modulus with QINV = -k^-1 modulo 2^64. -/
theorem add_reductionMultiplier_mul_mod {k : Nat} (hk : QINV * k + 1 ≡ 0 [MOD W]) (t : Nat) :
    (t + reductionMultiplier t * k) % W = 0 := by
  have h : t + reductionMultiplier t * k ≡ 0 [MOD W] := by
    calc t + reductionMultiplier t * k ≡ t + t * QINV * k [MOD W] :=
          ((Nat.mod_modEq (t * QINV) W).mul_right k).add_left t
      _ = t * (QINV * k + 1) := by ring
      _ ≡ t * 0 [MOD W] := hk.mul_left t
      _ = 0 := Nat.mul_zero t
  exact h

/-- Folding m·q into four limbs clears the lowest one. -/
theorem mulAddRow_qLimbs_fst_cons (t : Nat) (ts : List Nat) :
    (mulAddRow (t :: ts) (reductionMultiplier t) qLimbs).1 =
      0 :: (mulAddRow (t :: ts) (reductionMultiplier t) qLimbs).1.tail := by
  have hk : QINV * 0x19d0c5fd00c00001 + 1 ≡ 0 [MOD W] := by decide
  rw [mulAddRow, qLimbs, List.zipWith_cons_cons, carryChain, Nat.add_zero, add_reductionMultiplier_mul_mod hk,
    List.tail_cons]

/-- The value of the five limbs between two rounds. -/
def CiosAcc.value (acc : CiosAcc) : Nat := digitsValue (acc.low ++ [acc.top])

/-- The second half of a round: m·q is folded into the limbs `ts` and the words `t4` and `t5` above them, and the window
is shifted by one limb. -/
def foldModulus (ts : List Nat) (t4 t5 : Nat) : CiosAcc :=
  let fold := mulAddRow ts (reductionMultiplier (ts.headD 0)) qLimbs
  { low := fold.1.tail ++ [(t4 + fold.2) % W]
    top := t5 + (t4 + fold.2) / W }

/-- A round is the row of xi·y followed by the reduction. -/
theorem ciosRound_eq (ys : List Nat) (acc : CiosAcc) (xi : Nat) :
    ciosRound ys acc xi = foldModulus (mulAddRow acc.low xi ys).1 ((acc.top + (mulAddRow acc.low xi ys).2) % W)
      ((acc.top + (mulAddRow acc.low xi ys).2) / W) := rfl

theorem length_foldModulus_low {ts : List Nat} (hlen : ts.length = 4) (t4 t5 : Nat) :
    (foldModulus ts t4 t5).low.length = 4 := by
  simp only [foldModulus, List.length_append, List.length_tail, length_mulAddRow_fst (ys := qLimbs) hlen, hlen,
    List.length_singleton]

/-- The reduction adds a multiple m·q, m below 2^64, and divides by 2^64 exactly. -/
theorem foldModulus_value {ts : List Nat} (hlen : ts.length = 4) (t4 t5 : Nat) :
    W * (foldModulus ts t4 t5).value =
      digitsValue ts + reductionMultiplier (ts.headD 0) * q + W ^ 4 * (t4 + W * t5) := by
  obtain ⟨t, us, rfl⟩ := List.exists_cons_of_length_eq_add_one hlen
  have hrow := mulAddRow_value (ys := qLimbs) hlen (reductionMultiplier t)
  have htail : (mulAddRow (t :: us) (reductionMultiplier t) qLimbs).1.tail.length = 3 := by
    rw [List.length_tail, length_mulAddRow_fst (ys := qLimbs) hlen, hlen]
  rw [mulAddRow_qLimbs_fst_cons, digitsValue_cons, hlen, digitsValue_qLimbs] at hrow
  simp only [CiosAcc.value, foldModulus, List.headD_cons]
  generalize mulAddRow (t :: us) (reductionMultiplier t) qLimbs = fold at hrow htail ⊢
  have htop := Nat.mod_add_div (t4 + fold.2) W
  rw [digitsValue_append_singleton, digitsValue_append_singleton, List.length_append, htail, List.length_singleton]
  linear_combination hrow + W ^ 4 * htop

/-! ## The rounds (R86, R87) -/

theorem length_ciosRound_low {ys : List Nat} {acc : CiosAcc} (hys : ys.length = 4) (hacc : acc.low.length = 4)
    (xi : Nat) : (ciosRound ys acc xi).low.length = 4 :=
  length_foldModulus_low ((length_mulAddRow_fst (hacc.trans hys.symm) xi).trans hacc) _ _

/-- A round adds xi·y and a multiple m·q, m below 2^64, and divides by 2^64 exactly. -/
theorem ciosRound_value {ys : List Nat} {acc : CiosAcc} (hys : ys.length = 4) (hacc : acc.low.length = 4) (xi : Nat) :
    ∃ m < W, W * (ciosRound ys acc xi).value = acc.value + xi * digitsValue ys + m * q := by
  have hlen : acc.low.length = ys.length := hacc.trans hys.symm
  have hrow := mulAddRow_value hlen xi
  have hfold := foldModulus_value ((length_mulAddRow_fst hlen xi).trans hacc)
    ((acc.top + (mulAddRow acc.low xi ys).2) % W) ((acc.top + (mulAddRow acc.low xi ys).2) / W)
  rw [← ciosRound_eq, Nat.mod_add_div] at hfold
  rw [hacc] at hrow
  refine ⟨reductionMultiplier ((mulAddRow acc.low xi ys).1.headD 0), reductionMultiplier_lt _, hfold.trans ?_⟩
  rw [CiosAcc.value, digitsValue_append_singleton, hacc]
  linear_combination hrow

/-- The rounds over n limbs add their value times y and a multiple M·q, M below 2^(64·n), and divide by 2^(64·n)
exactly. -/
theorem foldl_ciosRound_value {ys : List Nat} (hys : ys.length = 4) (xs : List Nat) :
    ∀ {acc : CiosAcc}, acc.low.length = 4 → ∃ M < W ^ xs.length,
      W ^ xs.length * (xs.foldl (ciosRound ys) acc).value = acc.value + digitsValue xs * digitsValue ys + M * q := by
  induction xs with
  | nil => intro acc _; exact ⟨0, by simp, by simp [digitsValue]⟩
  | cons x xs ih =>
    intro acc hacc
    obtain ⟨m, hm, hround⟩ := ciosRound_value hys hacc x
    obtain ⟨M, hM, hrest⟩ := ih (length_ciosRound_low hys hacc x)
    refine ⟨m + W * M, ?_, ?_⟩
    · calc m + W * M < W * (M + 1) := by rw [Nat.mul_add_one]; omega
        _ ≤ W * W ^ xs.length := Nat.mul_le_mul_left W hM
        _ = W ^ (x :: xs).length := by rw [List.length_cons, pow_succ']
    · rw [List.foldl_cons, List.length_cons, digitsValue_cons]
      linear_combination W * hrest + hround

/-! ## The loop and R87's value -/

/-- R87: M is the only multiplier below R that makes the division exact. -/
theorem eq_ciosMultiplier_of_dvd {x y M : Nat} (hM : M < R) (hdvd : R ∣ x * y + M * q) : M = ciosMultiplier x y := by
  have hsum : x * y + M * q ≡ x * y + ciosMultiplier x y * q [MOD R] :=
    (Nat.modEq_zero_iff_dvd.2 hdvd).trans (Nat.modEq_zero_iff_dvd.2 (R_dvd_cios_sum x y)).symm
  exact (Nat.ModEq.cancel_right_of_coprime coprime_R_q (Nat.ModEq.add_left_cancel' _ hsum)).eq_of_lt_of_lt hM
    (ciosMultiplier_lt x y)

theorem R_mul_ciosLoop {x y : Nat} (hx : x < R) (hy : y < R) : ∃ M < R, R * ciosLoop x y = x * y + M * q := by
  obtain ⟨M, hM, hvalue⟩ := foldl_ciosRound_value (ys := limbsOf y) rfl (limbsOf x) (acc := ⟨[0, 0, 0, 0], 0⟩) rfl
  rw [show (limbsOf x).length = 4 from rfl, W_pow_four] at hM hvalue
  rw [digitsValue_limbsOf hx, digitsValue_limbsOf hy, show CiosAcc.value ⟨[0, 0, 0, 0], 0⟩ = 0 from rfl,
    Nat.zero_add] at hvalue
  exact ⟨M, hM, hvalue⟩

theorem ciosLoop_eq_cios {x y : Nat} (hx : x < R) (hy : y < R) : ciosLoop x y = cios x y := by
  obtain ⟨M, hM, hloop⟩ := R_mul_ciosLoop hx hy
  rw [cios, ← eq_ciosMultiplier_of_dvd hM ⟨_, hloop.symm⟩, ← hloop]
  exact (Nat.mul_div_cancel_left _ (by decide)).symm

/-- "The result is below R + q, so the 5-limb accumulator holds it" (R87). -/
theorem cios_lt_R_add_q {x y : Nat} (hx : x < R) (hy : y < R) : cios x y < R + q := by
  apply Nat.lt_of_mul_lt_mul_right (a := R)
  calc cios x y * R = x * y + ciosMultiplier x y * q := cios_mul_R x y
    _ < R * R + R * q := Nat.add_lt_add (Nat.mul_lt_mul'' hx hy)
        (Nat.mul_lt_mul_of_pos_right (ciosMultiplier_lt x y) q_pos)
    _ = (R + q) * R := by ring

/-- Settles O36: the four rounds divide x·y + M·q by R exactly, with M below R, and only R87's multiplier does that. -/
theorem ciosLoopReturnsTheExactQuotient : Obligations.CiosLoopReturnsTheExactQuotient := fun x y hx hy =>
  ⟨ciosLoop_eq_cios hx hy, cios_mul_R x y, ciosMultiplier_lt x y, cios_lt_R_add_q hx hy, cios_lt⟩

end Sys2Proof.Machine
end

section
/-! PROOFS. The Montgomery multiplier's commands: MUL, SQR, TOMONT, FROMMONT and MULC (R91 - R95). -/

namespace Sys2Proof.Machine
open Sys2Proof Sys2Proof.Config

/-- Settles O33: MontMul's value for operands below q (R89), and its identity ONE. -/
theorem multiplyIsMontgomeryMultiplication : Obligations.MultiplyIsMontgomeryMultiplication := by
  refine ⟨fun s rd rs1 rs2 hx hy => ?_, fun s rd rs1 hx => ?_, montMul_mont, fun _ hx => montMul_ONE hx, R_mul_rInv⟩
  · rw [exec_mul, completed_setReg, montMul_of_lt hx hy, elemOf]
  · rw [exec_sqr, completed_setReg, montMul_of_lt hx hx, elemOf]

theorem toMont_fromMont {x : Nat} (hx : x < q) : toMont (fromMont x) = x := by
  rw [toMont_eq ((fromMont_lt hx).trans q_lt_R), fromMont_eq hx, mont_reg hx]

/-- Settles O34: TOMONT writes Mont of the register and FROMMONT its regular value, which undo each other. -/
theorem conversionsMultiplyByTheRadix : Obligations.ConversionsMultiplyByTheRadix := by
  refine ⟨fun s rd rs1 hx => ?_, fun s rd rs1 hx => ?_, fun _ hx => fromMont_toMont hx, fun _ hx => toMont_fromMont hx⟩
  · rw [exec_tomont, completed_setReg, toMont_eq (hx.trans q_lt_R), mont, elemOf]
  · rw [exec_frommont, completed_setReg, fromMont_eq hx, reg, elemOf]

/-- The radix of the constant's Montgomery form cancels the R^-1 of the product (R95). -/
theorem montMul_toMont {x c : Nat} (hx : x < q) (hc : c < R) : montMul x (toMont c) = x * c % q := by
  have h : x * mont c * rInv ≡ x * c [MOD q] := by
    calc x * mont c * rInv ≡ x * (c * R) * rInv [MOD q] := ((mont_modEq c).mul_left x).mul_right rInv
      _ = x * c * (R * rInv) := by ring
      _ ≡ x * c * 1 [MOD q] := R_mul_rInv_modEq.mul_left _
      _ = x * c := Nat.mul_one _
  rw [toMont_eq hc, montMul_of_lt hx (mont_lt c)]
  exact h

theorem mont_mul_mod (a c : Nat) : mont a * c % q = mont (a * c) := by
  rw [mont, mont, Nat.mod_mul_mod, Nat.mul_right_comm]

/-- Settles O35: the zero-extended constant is below R, so its Montgomery form multiplies by the constant itself. -/
theorem multiplyByConstantIsModular : Obligations.MultiplyByConstantIsModular := by
  refine ⟨fun s rd rs1 c hx => ?_, fun a c => mont_mul_mod a c.toNat⟩
  rw [exec_mulc, completed_setReg, montMul_toMont hx (immValue_lt c), immValue, elemOf]

end Sys2Proof.Machine
end

section
/-! PROOFS. EXP and LEG (R98, R99): the power on the stored value, Euler's criterion on the stored value, and the power that
SqrtTS and LEG both test. -/

namespace Sys2Proof.Machine
open Sys2Proof Sys2Proof.Config

/-! ## EXP (R96, R98) -/

theorem modExp_zero (x : Nat) : modExp x 0 = ONE := by rw [modExp, if_pos rfl]

/-- "For any stored x, Exp(x, e) = x^e·R^(1-e) mod q" (R96). -/
theorem modExp_eq {x e : Nat} (hx : x < q) (he : e ≠ 0) : modExp x e = x ^ e * rInv ^ (e - 1) % q := by
  have hpow : reg x ^ e * R ≡ x ^ e * rInv ^ (e - 1) [MOD q] := by
    calc reg x ^ e * R ≡ (x * rInv) ^ e * R [MOD q] := ((Nat.mod_modEq _ q).pow e).mul_right R
      _ = x ^ e * rInv ^ (e - 1) * (R * rInv) := by rw [mul_pow, ← pow_sub_one_mul he rInv]; ring
      _ ≡ x ^ e * rInv ^ (e - 1) * 1 [MOD q] := R_mul_rInv_modEq.mul_left _
      _ = x ^ e * rInv ^ (e - 1) := Nat.mul_one _
  calc modExp x e = mont (reg x ^ e) := by rw [← modExp_mont, mont_reg hx]
    _ = x ^ e * rInv ^ (e - 1) % q := hpow

/-- Settles O37: the exponent 0 is R96's own case, and any other one leaves e - 1 of the e factors R^-1. -/
theorem exponentiationRaisesToTheLatchedPower : Obligations.ExponentiationRaisesToTheLatchedPower := by
  refine ⟨fun s rd rs1 hx => ?_, modExp_mont⟩
  rw [exec_exp, completed_setReg, State.latchedDin, elemOf]
  by_cases he : s.ldin.toNat = 0
  · rw [if_pos he, he, modExp_zero]
  · rw [if_neg he, modExp_eq hx he]

/-! ## LEG (R99) -/

/-- Euler's criterion for R = 2^256, the square of 2^128. -/
theorem R_pow_LEGEXP_modEq : R ^ LEGEXP ≡ 1 [MOD q] :=
  (euler_of_square (r := 2 ^ 128) (by decide) (by decide)).trans (by decide)

/-- R is a square, so a stored value and its regular value have the same power (R99). -/
theorem modExp_LEGEXP {x : Nat} (hx : x < q) : modExp x LEGEXP = mont (x ^ LEGEXP) := by
  have hpow : reg x ^ LEGEXP ≡ x ^ LEGEXP [MOD q] := by
    calc reg x ^ LEGEXP = reg x ^ LEGEXP * 1 := (Nat.mul_one _).symm
      _ ≡ reg x ^ LEGEXP * R ^ LEGEXP [MOD q] := R_pow_LEGEXP_modEq.symm.mul_left _
      _ = (reg x * R) ^ LEGEXP := (mul_pow _ _ _).symm
      _ ≡ mont (reg x) ^ LEGEXP [MOD q] := (mont_modEq _).symm.pow LEGEXP
      _ = x ^ LEGEXP := by rw [mont_reg hx]
  calc modExp x LEGEXP = mont (reg x ^ LEGEXP) := by rw [← modExp_mont, mont_reg hx]
    _ = mont (x ^ LEGEXP) := hpow.mul_right R

theorem modExp_LEGEXP_zero : modExp 0 LEGEXP = 0 := by
  rw [modExp_LEGEXP q_pos, zero_pow (by decide), mont, Nat.zero_mul, Nat.zero_mod]

theorem modExp_LEGEXP_of_square {x : Nat} (hx : x < q) (h0 : x ≠ 0) (hsq : IsSquareModQ x) : modExp x LEGEXP = ONE := by
  obtain ⟨r, hr⟩ := hsq
  rw [modExp_LEGEXP hx, ← mont_mod, euler_of_square hr (Nat.not_dvd_of_pos_of_lt (Nat.pos_of_ne_zero h0) hx), mont_one]

theorem modExp_LEGEXP_of_not_square {x : Nat} (hx : x < q) (hsq : ¬ IsSquareModQ x) : modExp x LEGEXP = q - ONE := by
  rw [modExp_LEGEXP hx, mont_eq_minus_one_iff, Nat.cast_pow, ← not_isSquareModQ_iff]
  exact hsq

theorem modExp_LEGEXP_ne_zero {x : Nat} (hx : x < q) (h0 : x ≠ 0) : modExp x LEGEXP ≠ 0 := by
  by_cases hsq : IsSquareModQ x
  · rw [modExp_LEGEXP_of_square hx h0 hsq]; decide
  · rw [modExp_LEGEXP_of_not_square hx hsq]; decide

theorem legendreResult_zero : legendreResult 0 = resultZero := by decide
theorem legendreResult_ONE : legendreResult ONE = resultPlusOne := by decide
theorem legendreResult_minus_one : legendreResult (q - ONE) = resultMinusOne := by decide

/-- Settles O38: the power is 0, ONE or Mont(-1) as the register is 0, a non-zero square or a non-square. -/
theorem legendreSymbolOfTheStoredValue : Obligations.LegendreSymbolOfTheStoredValue := by
  intro s rs1 hx
  refine ⟨legendreResult (modExp (s.reg rs1) LEGEXP), by rw [exec_leg, completed_setResult], fun h0 => ?_,
    fun h0 hsq => ?_, fun _ hsq => ?_⟩
  · rw [h0, modExp_LEGEXP_zero, legendreResult_zero, resultZero]
  · rw [modExp_LEGEXP_of_square hx h0 hsq, legendreResult_ONE, resultPlusOne]
  · rw [modExp_LEGEXP_of_not_square hx hsq, legendreResult_minus_one, resultMinusOne]

/-! ## LEG against SQRT (R99, R107) -/

theorem legendreResult_eq_one_iff (l : Nat) : legendreResult l = 0x0000000000000001#64 ↔ l = ONE := by
  unfold legendreResult
  split
  · next h => exact iff_of_false (by decide) (by rw [h]; decide)
  · split
    · next h => exact iff_of_true rfl h
    · next h => exact iff_of_false (by decide) h

theorem two_mul_SQRTEXP : 2 * SQRTEXP + 1 = T := by decide

/-- SqrtTS first tests the power that LEG tests: with w = Mont(a^SQRTEXP), the 2^21-th power of b = Mont(a^T) is
Exp(Mont(a), LEGEXP) (R99, R107). -/
theorem sqrtTS_mont (g a : Nat) :
    sqrtTS g (mont a) =
      if modExp (mont a) LEGEXP = 0 then .root 0
      else if modExp (mont a) LEGEXP = ONE then sqrtLoop g S (mont (a ^ (SQRTEXP + 1))) (mont (a ^ T)) S
      else .absent := by
  have hy : montMul (mont a) (modExp (mont a) SQRTEXP) = mont (a ^ (SQRTEXP + 1)) := by
    rw [modExp_mont, montMul_mont, pow_succ']
  have hb : montMul (modExp (mont a) SQRTEXP) (mont (a ^ (SQRTEXP + 1))) = mont (a ^ T) := by
    rw [modExp_mont, montMul_mont, ← pow_add, ← Nat.add_assoc, ← Nat.two_mul, two_mul_SQRTEXP]
  have hc : squareTimes (mont (a ^ T)) (S - 1) = modExp (mont a) LEGEXP := by
    rw [squareTimes_mont, modExp_mont, ← pow_mul, T_mul_two_pow]
  simp only [sqrtTS]
  rw [hy, hb, hc]

/-- Past the test, SqrtTS finds a root or does not end (R107). -/
theorem sqrtLoop_ne_absent (n : Nat) : ∀ g r y b : Nat, sqrtLoop g r y b n ≠ .absent := by
  induction n with
  | zero => intro g r y b; rw [sqrtLoop]; exact nofun
  | succ n ih =>
    intro g r y b
    rw [sqrtLoop]
    cases squaringsToOne b 0 r with
    | none => exact nofun
    | some m =>
      rw [Option.elim_some]
      split
      · exact nofun
      · exact ih _ _ _ _

/-- The agreement of R99 on the primitives, for any SQRT_G. -/
theorem sqrtTS_absent_iff {g x : Nat} (hx : x < q) (h0 : x ≠ 0) : sqrtTS g x = .absent ↔ modExp x LEGEXP ≠ ONE := by
  have heq := sqrtTS_mont g (reg x)
  rw [mont_reg hx, if_neg (modExp_LEGEXP_ne_zero hx h0)] at heq
  rw [heq]
  split
  · next h => exact iff_of_false (sqrtLoop_ne_absent _ _ _ _ _) (not_not_intro h)
  · next h => exact iff_of_true rfl h

/-- Settles O48: LEG and SqrtTS test the same power, and past that test SqrtTS does not answer ABSENT. -/
theorem legendreAgreesWithSquareRoot : Obligations.LegendreAgreesWithSquareRoot := by
  intro s t u rd rs1 hx h0 _ hleg hsqrt
  have ht : t.result = legendreResult (modExp (s.reg rs1) LEGEXP) := by
    rw [exec_leg] at hleg
    rw [completed_next hleg, State.complete_result, State.setResult_result]
  have habs := sqrtTS_absent_iff (g := s.sqrtG.toNat) hx h0
  rw [ht, legendreResult_eq_one_iff]
  rw [exec_sqrt] at hsqrt
  obtain ⟨y, hroot, rfl⟩ | ⟨hnone, rfl⟩ := sqrtOutcome_next hsqrt
  · exact iff_of_true (not_not.1 fun h => nomatch hroot.symm.trans (habs.2 h)) rfl
  · exact iff_of_false (habs.1 hnone) nofun

end Sys2Proof.Machine
end

section
/-! PROOFS. Inverse at every 256-bit operand (R102): the values below q, the multiples of q on which the loop never ends, and
the other values of q and above; and from them INV and DIV (R103, R104). -/

namespace Sys2Proof.Machine
open Sys2Proof Sys2Proof.Config

/-! ## The pass bound (R102) -/

theorem coprime_q_of_lt {x : Nat} (h0 : x ≠ 0) (hx : x < q) : Nat.Coprime q x := Nat.coprime_of_lt_prime h0 hx q_prime

/-- The cofactor of a value is unique where x is invertible modulo q. -/
theorem IsCofactor.unique {x v s s' : Nat} (hx : Nat.Coprime q x) (h : IsCofactor x v s) (h' : IsCofactor x v s') :
    s = s' := by
  obtain ⟨hlt, hcong⟩ := h
  obtain ⟨hlt', hcong'⟩ := h'
  exact (Nat.ModEq.cancel_right_of_coprime hx (hcong.trans hcong'.symm)).eq_of_lt_of_lt hlt hlt'

/-- Settles O40: the loop ends within 506 passes, so within 507 and within the model's 512, and both times with the
cofactor of 1, which is unique. -/
theorem inverseEndsWithinItsPassBound : Obligations.InverseEndsWithinItsPassBound := by
  intro x hpos hx
  have h0 : x ≠ 0 := Nat.ne_of_gt hpos
  obtain ⟨v, hv, hcof⟩ := gcdLoop_start_ends (n := 507) h0 hx (by omega)
  obtain ⟨w, hw, hcof'⟩ := gcdLoop_start_ends (n := 512) h0 hx (by omega)
  obtain rfl : v = w := hcof.unique (coprime_q_of_lt h0 hx) hcof'
  exact ⟨v, hv, by rw [inverse, if_neg h0, hw]⟩

/-! ## Multiples of q (R102) -/

theorem q_dvd_half {v : Nat} (h : q ∣ v) (hv : v % 2 = 0) : q ∣ v / 2 := by
  have hodd : Nat.Coprime q 2 := by decide
  apply hodd.dvd_of_dvd_mul_left
  rwa [Nat.mul_div_cancel' (Nat.dvd_of_mod_eq_zero hv)]

theorem q_dvd_stripTwos (n : Nat) : ∀ {v s : Nat}, q ∣ v → q ∣ (stripTwos v s n).1 := by
  induction n with
  | zero => intro v s h; exact h
  | succ n ih =>
    intro v s h
    obtain hv | hv := Nat.mod_two_eq_zero_or_one v
    · rw [stripTwos_even hv]
      exact ih (q_dvd_half h hv)
    · rwa [stripTwos_odd hv]

theorem q_dvd_subtractSmaller {g : GcdState} (hu : q ∣ g.u) (hv : q ∣ g.v) :
    q ∣ (subtractSmaller g).u ∧ q ∣ (subtractSmaller g).v := by
  rw [subtractSmaller]
  split
  · exact ⟨hu, Nat.dvd_sub hv hu⟩
  · exact ⟨Nat.dvd_sub hu hv, hv⟩

theorem ne_one_of_q_dvd {v : Nat} (h : q ∣ v) : v ≠ 1 := by
  rintro rfl
  exact q_prime.ne_one (Nat.dvd_one.1 h)

/-- From multiples of q every pass leaves multiples of q, which are never 1: no number of passes ends the loop. -/
theorem gcdLoop_eq_none_of_q_dvd (n : Nat) : ∀ {g : GcdState}, q ∣ g.u → q ∣ g.v → gcdLoop g n = none := by
  induction n with
  | zero => intro g _ _; rfl
  | succ n ih =>
    intro g hu hv
    obtain ⟨hu', hv'⟩ : q ∣ (gcdPass g).u ∧ q ∣ (gcdPass g).v := by
      rw [gcdPass_eq]
      exact q_dvd_subtractSmaller (q_dvd_stripTwos 256 hu) (q_dvd_stripTwos 256 hv)
    rw [gcdLoop, if_neg (ne_one_of_q_dvd hu'), if_neg (ne_one_of_q_dvd hv'), ih hu' hv']

/-! ## The other values of q and above (R102) -/

theorem stripBoth_of_odd {g : GcdState} (hu : g.u % 2 = 1) (hv : g.v % 2 = 1) : stripBoth g = g := by
  rw [stripBoth, stripTwos_odd hu, stripTwos_odd hv]

/-- A pass strips first, so the loop may as well start from stripped values. -/
theorem gcdLoop_stripBoth {g : GcdState} (hu : (stripBoth g).u % 2 = 1) (hv : (stripBoth g).v % 2 = 1) (n : Nat) :
    gcdLoop (stripBoth g) n = gcdLoop g n := by
  have hpass : gcdPass (stripBoth g) = gcdPass g := by
    rw [gcdPass_eq, gcdPass_eq, stripBoth_of_odd hu hv]
  cases n with
  | zero => rfl
  | succ n => rw [gcdLoop, gcdLoop, hpass]

/-- What holds of the loop of Inverse(x) while u is still q: v is a 256-bit value that q does not divide, of any size
beside q. -/
structure GcdHead (x : Nat) (g : GcdState) : Prop where
  u_eq : g.u = q
  v_lt : g.v < 2 ^ 256
  not_dvd : ¬ q ∣ g.v
  cofactor_u : IsCofactor x g.u g.r
  cofactor_v : IsCofactor x g.v g.s

theorem gcdHead_start {x : Nat} (hx : x < 2 ^ 256) (hq : ¬ q ∣ x) : GcdHead x ⟨q, x, 0, RSQ⟩ :=
  ⟨rfl, hx, hq, isCofactor_q x, isCofactor_self x⟩

theorem GcdHead.v_pos {x : Nat} {g : GcdState} (h : GcdHead x g) : 0 < g.v :=
  Nat.pos_of_ne_zero fun h0 => h.not_dvd (by rw [h0]; exact Nat.dvd_zero q)

theorem GcdHead.u_odd {x : Nat} {g : GcdState} (h : GcdHead x g) : g.u % 2 = 1 := by rw [h.u_eq, q_odd]

theorem GcdHead.running {x : Nat} {g : GcdState} (h : GcdHead x g) : Running g :=
  .inl ⟨h.u_odd, by rw [h.u_eq]; exact q_prime.ne_one⟩

theorem GcdHead.stripped {x : Nat} {g : GcdState} (h : GcdHead x g) :
    GcdHead x (stripBoth g) ∧ (stripBoth g).v % 2 = 1 := by
  have hdvd := stripTwos_dvd 256 g.v g.s
  have hle := stripTwos_fst_le h.v_pos g.s 256
  rw [stripBoth, stripTwos_odd h.u_odd]
  exact ⟨⟨h.u_eq, hle.trans_lt h.v_lt, fun hq => h.not_dvd (hq.trans hdvd), h.cofactor_u,
    stripTwos_isCofactor 256 h.cofactor_v⟩, stripTwos_fst_odd 256 g.s h.v_pos h.v_lt⟩

/-- Below q it is the invariant of R101. -/
theorem GcdHead.invariant {x : Nat} {g : GcdState} (h : GcdHead x g) (hlt : g.v < q) : GcdInvariant x g where
  u_pos := by rw [h.u_eq]; exact q_pos
  v_pos := h.v_pos
  u_le := h.u_eq.le
  v_le := hlt.le
  coprime := by rw [h.u_eq]; exact (q_prime.coprime_iff_not_dvd).2 h.not_dvd
  cofactor_u := h.cofactor_u
  cofactor_v := h.cofactor_v

theorem GcdHead.ends_of_lt {x n : Nat} {g : GcdState} (h : GcdHead x g) (hlt : g.v < q) (hn : 506 ≤ n) :
    ∃ w, gcdLoop g n = some w ∧ IsCofactor x 1 w := by
  have hinv := h.invariant hlt
  refine gcdLoop_ends n hinv h.running (hinv.strippedProduct_le.trans_lt ?_)
  rw [h.u_eq]
  exact mul_lt_two_pow q_lt_two_pow (hlt.trans q_lt_two_pow) hn

/-- Above q a pass takes q away from an odd v. -/
theorem GcdHead.subtracted {x : Nat} {g : GcdState} (h : GcdHead x g) (hgt : q < g.v) :
    GcdHead x (subtractSmaller g) ∧ (subtractSmaller g).v = g.v - q := by
  rw [subtractSmaller_of_lt (by rw [h.u_eq]; exact hgt)]
  refine ⟨⟨h.u_eq, (Nat.sub_le _ _).trans_lt h.v_lt, fun hq => h.not_dvd ?_, h.cofactor_u,
    h.cofactor_v.sub h.cofactor_u (by rw [h.u_eq]; exact hgt.le)⟩, by rw [h.u_eq]⟩
  rw [h.u_eq] at hq
  exact (Nat.dvd_sub_iff_left hgt.le dvd_rfl).1 hq

/-- An odd v below 2^k·q is below q after at most k passes, since q is subtracted and the even difference halved in each. -/
theorem GcdHead.ends_of_odd {x : Nat} (k : Nat) : ∀ {g : GcdState}, GcdHead x g → g.v % 2 = 1 → g.v < 2 ^ k * q →
    ∃ w, gcdLoop g (506 + k) = some w ∧ IsCofactor x 1 w := by
  induction k with
  | zero =>
    intro g h _ hlt
    exact h.ends_of_lt (by omega) (by omega)
  | succ k ih =>
    intro g h hodd hlt
    obtain hbelow | habove : g.v < q ∨ q < g.v := by
      have hne : g.v ≠ q := fun heq => h.not_dvd (by rw [heq])
      omega
    · exact h.ends_of_lt hbelow (by omega)
    · have hpass : gcdPass g = subtractSmaller g := by rw [gcdPass_eq, stripBoth_of_odd h.u_odd hodd]
      obtain ⟨hnext, hv⟩ := h.subtracted habove
      have hqodd := q_odd
      have heven : (subtractSmaller g).v % 2 = 0 := by omega
      have hhalf : 2 * (stripBoth (subtractSmaller g)).v ≤ (subtractSmaller g).v :=
        two_mul_stripTwos_fst_le hnext.v_pos heven (subtractSmaller g).s 255
      obtain ⟨hstrip, hodd'⟩ := hnext.stripped
      have hsmall : (stripBoth (subtractSmaller g)).v < 2 ^ k * q := by
        rw [pow_succ', Nat.mul_assoc] at hlt
        omega
      have hu1 : (subtractSmaller g).u ≠ 1 := by rw [hnext.u_eq]; exact q_prime.ne_one
      have hv1 : (subtractSmaller g).v ≠ 1 := by omega
      rw [← Nat.add_assoc, gcdLoop, hpass, if_neg hu1, if_neg hv1, ← gcdLoop_stripBoth hstrip.u_odd hodd']
      exact ih hstrip hodd' hsmall

/-- For a 256-bit x that q does not divide, the loop ends within the 512 passes of the model (log 11). -/
theorem inverse_ends_of_not_dvd {x : Nat} (hx : x < 2 ^ 256) (hq : ¬ q ∣ x) :
    ∃ v, inverse x = some v ∧ IsCofactor x 1 v := by
  have h0 : x ≠ 0 := by
    rintro rfl
    exact hq (Nat.dvd_zero q)
  have hhead := gcdHead_start hx hq
  obtain ⟨hstrip, hodd⟩ := hhead.stripped
  have hlt : (stripBoth ⟨q, x, 0, RSQ⟩).v < 2 ^ 6 * q := hstrip.v_lt.trans (by decide)
  obtain ⟨v, hv, hcof⟩ := hstrip.ends_of_odd 6 hodd hlt
  rw [gcdLoop_stripBoth hstrip.u_odd hodd] at hv
  exact ⟨v, by rw [inverse, if_neg h0, hv], hcof⟩

/-- Among the 256-bit values, Inverse does not end on the non-zero multiples of q alone (R102). -/
theorem inverse_eq_none_iff {x : Nat} (hx : x < 2 ^ 256) : inverse x = none ↔ x ≠ 0 ∧ q ∣ x := by
  constructor
  · intro hnone
    by_contra hcon
    by_cases h0 : x = 0
    · rw [h0, inverse_zero] at hnone
      cases hnone
    · obtain ⟨v, hv, -⟩ := inverse_ends_of_not_dvd hx fun hq => hcon ⟨h0, hq⟩
      rw [hv] at hnone
      cases hnone
  · rintro ⟨h0, hq⟩
    rw [inverse, if_neg h0]
    exact gcdLoop_eq_none_of_q_dvd 512 dvd_rfl hq

/-! ## INV (R103) -/

theorem completedOr_eq_fault_iff (r : Fault) (o : Option State) : completedOr r o = .fault r ↔ o = none := by
  cases o <;> simp [completedOr, completed]

/-- Settles O41: INV stops exactly where Inverse does not end, and a register holds a 256-bit value. -/
theorem inverseIsStuckExactlyOnMultiplesOfQ : Obligations.InverseIsStuckExactlyOnMultiplesOfQ := by
  intro s rd rs1
  rw [exec_inv, completedOr_eq_fault_iff, Option.map_eq_none_iff]
  exact inverse_eq_none_iff s.f[rs1.val].isLt

theorem exec_inv_of_inverse {s : State} {rd rs1 : Reg} {v : Nat} (h : inverse (s.reg rs1) = some v) :
    exec (.inv rd rs1) s = .next { s with f := s.f.set rd.val (elemOf v), busy := false, done := true } := by
  rw [exec_inv, h, Option.map_some, completedOr, completed_setReg]

/-- R101's value with the case 0 of R100: below q, Inverse always ends. -/
theorem inverse_of_lt {x : Nat} (hx : x < q) :
    ∃ v, inverse x = some v ∧ v < q ∧ (x = 0 → v = 0) ∧ (x ≠ 0 → v * x ≡ R * R [MOD q]) := by
  by_cases h0 : x = 0
  · exact ⟨0, by rw [h0, inverse_zero], q_pos, fun _ => rfl, fun hne => absurd h0 hne⟩
  · obtain ⟨v, hv, hlt, hcong⟩ := inverse_ends h0 hx
    exact ⟨v, hv, hlt, fun h => absurd h h0, fun _ => hcong⟩

/-- Settles O39: the register takes R101's value, and a product that is R^2 modulo q is ONE in Montgomery form. -/
theorem inverseIsTheMontgomeryInverse : Obligations.InverseIsTheMontgomeryInverse := by
  intro s rd rs1 hx
  obtain ⟨v, hv, hlt, hzero, hcong⟩ := inverse_of_lt hx
  refine ⟨v, hlt, by rw [exec_inv_of_inverse hv, elemOf], hzero, fun h0 => ⟨hcong h0, montMul_eq_ONE hlt hx ?_⟩⟩
  rw [Nat.mul_comm]
  exact hcong h0

/-! ## DIV (R104) -/

theorem montMul_modEq {x y : Nat} (hx : x < q) (hy : y < q) : montMul x y ≡ x * y * rInv [MOD q] := by
  rw [montMul_of_lt hx hy]
  exact Nat.mod_modEq _ q

theorem montMul_zero {x : Nat} (hx : x < q) : montMul x 0 = 0 := by
  rw [montMul_of_lt hx q_pos, Nat.mul_zero, Nat.zero_mul, Nat.zero_mod]

/-- x times the inverse of y, times y again, is x·R: the R^-1 of MontMul leaves one of the two factors R (R104). -/
theorem montMul_inverse_mul_modEq {x y v : Nat} (hx : x < q) (hv : v < q) (h : v * y ≡ R * R [MOD q]) :
    montMul x v * y ≡ x * R [MOD q] := by
  calc montMul x v * y ≡ x * v * rInv * y [MOD q] := (montMul_modEq hx hv).mul_right y
    _ = x * rInv * (v * y) := by ring
    _ ≡ x * rInv * (R * R) [MOD q] := h.mul_left _
    _ = x * R * (R * rInv) := by ring
    _ ≡ x * R * 1 [MOD q] := R_mul_rInv_modEq.mul_left _
    _ = x * R := Nat.mul_one _

theorem exec_div_of_inverse {s : State} {rd rs1 rs2 : Reg} {v : Nat} (h : inverse (s.reg rs2) = some v) :
    exec (.div rd rs1 rs2) s =
      .next { s with f := s.f.set rd.val (elemOf (montMul (s.reg rs1) v)), busy := false, done := true } := by
  rw [exec_div, h, Option.map_some, completedOr, completed_setReg]

/-- Settles O42: the quotient is MontMul of the dividend and R101's value, or of the dividend and 0. -/
theorem divideMultipliesByTheInverse : Obligations.DivideMultipliesByTheInverse := by
  intro s rd rs1 rs2 hx hy
  obtain ⟨v, hv, hlt, hzero, hcong⟩ := inverse_of_lt hy
  refine ⟨montMul (s.reg rs1) v, montMul_lt_q hx hlt, by rw [exec_div_of_inverse hv, elemOf], fun h0 => ?_,
    fun h0 => montMul_inverse_mul_modEq hx hlt (hcong h0)⟩
  rw [hzero h0, montMul_zero hx]

end Sys2Proof.Machine
end

section
/-! PROOFS. BatchInvert and BINV (R105, R106): one Inverse of the product of the non-zero elements gives the Inverse of each,
the completion writes them, and the issue checks the ranges. -/

namespace Sys2Proof.Machine
open Sys2Proof Sys2Proof.Config

/-! ## The inverse of a product -/

theorem montMul_comm (x y : Nat) : montMul x y = montMul y x := by
  rw [montMul, montMul, cios, cios, ciosMultiplier, ciosMultiplier, Nat.mul_comm x y]

theorem montMul_ne_zero {x y : Nat} (hx : x < q) (hy : y < q) (hx0 : x ≠ 0) (hy0 : y ≠ 0) : montMul x y ≠ 0 := by
  have hunit : ∀ {z : Nat}, z ≠ 0 → z < q → ¬ q ∣ z := fun h0 hlt =>
    Nat.not_dvd_of_pos_of_lt (Nat.pos_of_ne_zero h0) hlt
  rw [montMul_of_lt hx hy, Ne, ← Nat.dvd_iff_mod_eq_zero, q_prime.dvd_mul, q_prime.dvd_mul]
  rintro ((h | h) | h)
  · exact hunit hx0 hx h
  · exact hunit hy0 hy h
  · exact hunit (by decide) rInv_lt h

/-- The value of R101 is the only one below q with its law. -/
theorem inverse_eq_some_iff {x v : Nat} (h0 : x ≠ 0) (hx : x < q) :
    inverse x = some v ↔ v < q ∧ v * x ≡ R * R [MOD q] := by
  obtain ⟨w, hw, hlt, hcong⟩ := inverse_ends h0 hx
  rw [hw, Option.some.injEq]
  constructor
  · rintro rfl
    exact ⟨hlt, hcong⟩
  · rintro ⟨hv, hvx⟩
    have hcancel : w ≡ v [MOD q] :=
      Nat.ModEq.cancel_right_of_coprime (coprime_q_of_lt h0 hx) (hcong.trans hvx.symm)
    exact hcancel.eq_of_lt_of_lt hlt hv

/-- The inverse of a product times one factor is the inverse of the other (R89, R101). -/
theorem inverse_left_factor {x y w : Nat} (hx : x < q) (hy : y < q) (hx0 : x ≠ 0) (hy0 : y ≠ 0)
    (h : inverse (montMul x y) = some w) : inverse x = some (montMul w y) := by
  obtain ⟨hw, hcong⟩ := (inverse_eq_some_iff (montMul_ne_zero hx hy hx0 hy0) (montMul_lt_q hx hy)).1 h
  refine (inverse_eq_some_iff hx0 hx).2 ⟨montMul_lt_q hw hy, ?_⟩
  calc montMul w y * x ≡ w * y * rInv * x [MOD q] := (montMul_modEq hw hy).mul_right x
    _ = w * (x * y * rInv) := by ring
    _ ≡ w * montMul x y [MOD q] := (montMul_modEq hx hy).symm.mul_left w
    _ ≡ R * R [MOD q] := hcong

theorem inverse_right_factor {x y w : Nat} (hx : x < q) (hy : y < q) (hx0 : x ≠ 0) (hy0 : y ≠ 0)
    (h : inverse (montMul x y) = some w) : inverse y = some (montMul x w) := by
  rw [montMul_comm x y] at h
  rw [montMul_comm x w]
  exact inverse_left_factor hy hx hy0 hx0 h

/-! ## The two walks of BatchInvert (R106) -/

theorem prefixProducts_cons_zero (acc : Nat) (as : List Nat) :
    prefixProducts acc (0 :: as) = (acc :: (prefixProducts acc as).1, (prefixProducts acc as).2) := by
  simp only [prefixProducts, if_true]

theorem prefixProducts_cons_of_ne_zero {a : Nat} (h : a ≠ 0) (acc : Nat) (as : List Nat) :
    prefixProducts acc (a :: as) =
      (acc :: (prefixProducts (montMul acc a) as).1, (prefixProducts (montMul acc a) as).2) := by
  simp only [prefixProducts, if_neg h]

theorem unwindInverses_cons_zero (shared pre : Nat) (l : List (Nat × Nat)) :
    unwindInverses shared ((0, pre) :: l) = (0 :: (unwindInverses shared l).1, (unwindInverses shared l).2) := by
  simp only [unwindInverses, if_true]

theorem unwindInverses_cons_of_ne_zero {a : Nat} (h : a ≠ 0) (shared pre : Nat) (l : List (Nat × Nat)) :
    unwindInverses shared ((a, pre) :: l) =
      (montMul pre (unwindInverses shared l).2 :: (unwindInverses shared l).1,
        montMul (unwindInverses shared l).2 a) := by
  simp only [unwindInverses, if_neg h]

/-- The whole product is a value that the one Inverse ends on: zero elements are skipped. -/
theorem prefixProducts_product (as : List Nat) : ∀ {acc : Nat}, acc ≠ 0 → acc < q → (∀ a ∈ as, a < q) →
    (prefixProducts acc as).2 ≠ 0 ∧ (prefixProducts acc as).2 < q := by
  induction as with
  | nil => intro acc h0 hlt _; exact ⟨h0, hlt⟩
  | cons a as ih =>
    intro acc h0 hlt has
    obtain ⟨ha, has'⟩ := List.forall_mem_cons.1 has
    by_cases ha0 : a = 0
    · rw [ha0, prefixProducts_cons_zero]
      exact ih h0 hlt has'
    · rw [prefixProducts_cons_of_ne_zero ha0]
      exact ih (montMul_ne_zero hlt ha h0 ha0) (montMul_lt_q hlt ha) has'

/-- The walk back from the inverse of the whole product answers the Inverse of each element, and is left with the inverse of
the product that the walk forward started from. -/
theorem unwindInverses_prefixProducts {shared : Nat} (as : List Nat) : ∀ {acc : Nat}, acc ≠ 0 → acc < q →
    (∀ a ∈ as, a < q) → inverse (prefixProducts acc as).2 = some shared →
    inverse acc = some (unwindInverses shared (as.zip (prefixProducts acc as).1)).2 ∧
    List.Forall₂ (fun a v => inverse a = some v) as (unwindInverses shared (as.zip (prefixProducts acc as).1)).1 := by
  induction as with
  | nil => intro acc _ _ _ h; exact ⟨h, .nil⟩
  | cons a as ih =>
    intro acc h0 hlt has h
    obtain ⟨ha, has'⟩ := List.forall_mem_cons.1 has
    by_cases ha0 : a = 0
    · subst ha0
      rw [prefixProducts_cons_zero] at h ⊢
      obtain ⟨hleft, htail⟩ := ih h0 hlt has' h
      rw [List.zip_cons_cons, unwindInverses_cons_zero]
      exact ⟨hleft, .cons inverse_zero htail⟩
    · rw [prefixProducts_cons_of_ne_zero ha0] at h ⊢
      obtain ⟨hleft, htail⟩ := ih (montMul_ne_zero hlt ha h0 ha0) (montMul_lt_q hlt ha) has' h
      rw [List.zip_cons_cons, unwindInverses_cons_of_ne_zero ha0]
      exact ⟨inverse_left_factor hlt ha h0 ha0 hleft, .cons (inverse_right_factor hlt ha h0 ha0 hleft) htail⟩

/-- "BatchInvert(S)[i] == Inverse(S[i]) for every i" (R106). -/
theorem batchInverse_elementwise {as : List Nat} (has : ∀ a ∈ as, a < q) :
    ∃ vs, batchInverse as = some vs ∧ List.Forall₂ (fun a v => inverse a = some v) as vs := by
  have hone : ONE ≠ 0 := by decide
  obtain ⟨h0, hlt⟩ := prefixProducts_product as hone ONE_lt has
  obtain ⟨shared, hshared, -⟩ := inverse_ends h0 hlt
  obtain ⟨-, heach⟩ := unwindInverses_prefixProducts as hone ONE_lt has hshared
  exact ⟨_, by rw [batchInverse, hshared, Option.map_some], heach⟩

/-! ## BINV at completion (R106) -/

theorem regRange_lt_of_forall {s : State} {first : Reg} {n : Nat} (hfit : first.val + n ≤ 16)
    (h : ∀ j : Reg, first.val ≤ j.val → j.val < first.val + n → s.reg j < q) : ∀ a ∈ s.regRange first n, a < q := by
  intro a ha
  obtain ⟨i, hi, rfl⟩ := List.getElem_of_mem ha
  have hin : i < n := by rwa [regRange_length s hfit] at hi
  rw [regRange_getElem s first hfit hi]
  exact h _ (Nat.le_add_right _ _) (Nat.add_lt_add_left hin _)

theorem exec_binv_of_batchInverse {s : State} {rd rs1 : Reg} {n : BitVec 32} {vs : List Nat}
    (hfit : binvRangesFit rd rs1 n = true) (h : batchInverse (s.regRange rs1 n.toNat) = some vs) :
    exec (.binv rd rs1 n) s = .next { s with f := writeFrom rd.val vs s.f, busy := false, done := true } := by
  rw [exec_binv s rd rs1 n hfit, immValue, h]
  rfl

theorem writeFrom_getElem_of_mem {ns : List Nat} {k i : Nat} {f : Vector Elem 16} {j : Reg} (hi : i < ns.length)
    (hj : j.val = k + i) : (writeFrom k ns f)[j.val] = elemOf ns[i] := by
  rw [writeFrom_getElem ns k f j.val j.isLt, dif_pos ⟨by omega, by omega⟩]
  simp only [hj, Nat.add_sub_cancel_left]

theorem writeFrom_getElem_of_not_mem {ns : List Nat} {k : Nat} {f : Vector Elem 16} {j : Reg}
    (hj : j.val < k ∨ k + ns.length ≤ j.val) : (writeFrom k ns f)[j.val] = f[j.val] := by
  rw [writeFrom_getElem ns k f j.val j.isLt, dif_neg (by omega)]

/-- Settles O43: the list of sources is read from the old registers, BatchInvert is Inverse on each of them, and the list of
results is written to the destinations alone. -/
theorem batchInverseIsElementwise : Obligations.BatchInverseIsElementwise := by
  intro s rd rs1 n hn hrs1 hrd hlt
  obtain ⟨vs, hvs, heach⟩ := batchInverse_elementwise (regRange_lt_of_forall hrs1 hlt)
  have hsources := regRange_length s hrs1
  have hlen : vs.length = n.toNat := heach.length_eq.symm.trans hsources
  refine ⟨writeFrom rd.val vs s.f,
    exec_binv_of_batchInverse ((binvRangesFit_iff rd rs1 n).2 ⟨hn, hrs1, hrd⟩) hvs, ?_, ?_⟩
  · intro i src dst hi hsrc hdst
    have his : i < (s.regRange rs1 n.toNat).length := by omega
    have hiv : i < vs.length := by omega
    have hinv : inverse (s.regRange rs1 n.toNat)[i] = some vs[i] := heach.get his hiv
    have hread : (s.regRange rs1 n.toNat)[i] = s.reg src := by
      rw [regRange_getElem s rs1 hrs1 his]
      exact congrArg s.reg (Fin.ext hsrc.symm)
    have hfits : vs[i] < 2 ^ 256 := (inverse_lt hinv).trans_le q_le_two_pow_256
    rw [writeFrom_getElem_of_mem hiv hdst, elemOf_toNat hfits, ← hread, hinv]
  · intro j hj
    exact writeFrom_getElem_of_not_mem (by omega)

/-! ## The ranges of BINV (R105) -/

theorem binvRangesFit_iff_not (rd rs1 : Reg) (n : BitVec 32) :
    binvRangesFit rd rs1 n = true ↔ ¬ (n.toNat > 16 ∨ rs1.val + n.toNat > 16 ∨ rd.val + n.toNat > 16) := by
  rw [binvRangesFit_iff]
  omega

theorem binvRangesFit_eq_false {rd rs1 : Reg} {n : BitVec 32}
    (h : n.toNat > 16 ∨ rs1.val + n.toNat > 16 ∨ rd.val + n.toNat > 16) : binvRangesFit rd rs1 n = false :=
  Bool.eq_false_iff.2 fun hfit => (binvRangesFit_iff_not rd rs1 n).1 hfit h

theorem regRange_zero (s : State) (first : Reg) : s.regRange first 0 = [] := by rw [State.regRange, List.take_zero]; rfl

/-- The empty batch inverts the empty product ONE and writes nothing. -/
theorem exec_binv_zero (s : State) (rd rs1 : Reg) :
    exec (.binv rd rs1 0#32) s = .next { s with busy := false, done := true } := by
  have hfit : binvRangesFit rd rs1 0#32 = true := (binvRangesFit_iff rd rs1 0#32).2
    ⟨Nat.zero_le 16, rs1.isLt.le, rd.isLt.le⟩
  obtain ⟨vs, hvs, heach⟩ := batchInverse_elementwise (as := []) (fun _ ha => absurd ha List.not_mem_nil)
  obtain rfl : vs = [] := List.forall₂_nil_left_iff.1 heach
  rw [exec_binv_of_batchInverse hfit (by rw [BitVec.toNat_zero, regRange_zero, hvs]), writeFrom]

/-- A command that is not well-formed is refused before its DIN is looked at (R112). -/
theorem issue_of_badRange {s : State} {i : Instr} (hb : s.busy = false) (hw : WellFormed i = false) :
    s.issue (encode i) = s.refuse .badRange := by
  have hd : decode (encode i) = .ok i := encodedCommandDecodesBack i
  simp only [State.issue, hb, hd, hw, Bool.not_false, Bool.false_eq_true, if_false, if_true]

/-- Settles O44: BINV is well-formed exactly when its ranges fit, and it does not look at DIN. -/
theorem batchRangesAreCheckedAtIssue : Obligations.BatchRangesAreCheckedAtIssue := by
  refine ⟨exec_binv_zero, fun s rd rs1 n hb => ⟨fun hlong => ?_, fun hfit => ?_⟩⟩
  · rw [issue_of_badRange hb (i := .binv rd rs1 n) (binvRangesFit_eq_false hlong), State.refuse, State.recordError]
  · rw [issue_of_accepted hb (i := .binv rd rs1 n) ((binvRangesFit_iff_not rd rs1 n).2 hfit) nofun, State.latch]

end Sys2Proof.Machine
end

section
/-! PROOFS. The completions of latches that no issue leaves: a BINV with a range past F[15] and a word that is no command
(R105, R112; log 9 and 10). -/

namespace Sys2Proof.Machine
open Sys2Proof Sys2Proof.Config

/-- BINV tests its ranges again at completion (log 10). -/
theorem exec_binv_of_long_range {rd rs1 : Reg} {n : BitVec 32} (s : State) (h : binvRangesFit rd rs1 n = false) :
    exec (.binv rd rs1 n) s = .fault .latchedRangeTooLong := by
  rw [exec, execBinv, if_neg (by rw [h]; exact Bool.false_ne_true)]

theorem exists_decode_error {w : Word} (h : w.extractLsb' 0 8 ∉ opcodeMap ∨ w.extractLsb' 20 12 ≠ 0#12) :
    ∃ e, decode w = .error e := by
  cases hd : decode w with
  | error e => exact ⟨e, rfl⟩
  | ok i =>
    obtain ⟨hopc, hrsv⟩ := exists_decode_iff.1 ⟨i, hd⟩
    obtain hout | hset := h
    · exact absurd hopc hout
    · exact absurd hrsv hset

/-- With BUSY = 1 the turn is the engine's at an empty agenda, a WAIT and an engine mark, with L.CMD as it stands. -/
theorem turn_of_busy {s : State} (hb : s.busy = true)
    (h : s.agenda = [] ∨ s.agenda.head? = some .wait ∨ s.agenda.head? = some .engine) :
    ∃ s' : State, turn s = .engine s' ∧ s'.lcmd = s.lcmd := by
  obtain ha | ha | ha := h
  · exact ⟨s, by simp only [turn, ha, hb, if_true], rfl⟩
  · obtain ⟨rest, ha⟩ := List.head?_eq_some_iff.1 ha
    exact ⟨s, by simp only [turn, ha, hb, if_true], rfl⟩
  · obtain ⟨rest, ha⟩ := List.head?_eq_some_iff.1 ha
    exact ⟨{ s with agenda := rest }, by simp only [turn, ha, hb, if_true], rfl⟩

/-- Settles O45: the first stop is BINV's own test, and the engine stops on a latch that does not decode. -/
theorem latchOfNoCommandOrLongRangeStopsByName : Obligations.LatchOfNoCommandOrLongRangeStopsByName := by
  refine ⟨fun s rd rs1 n h => exec_binv_of_long_range s (binvRangesFit_eq_false h), fun s hb hword hplace => ?_⟩
  obtain ⟨e, hd⟩ := exists_decode_error hword
  obtain ⟨s', hturn, hlatch⟩ := turn_of_busy hb hplace
  simp only [step, hturn, latchedCommand, hlatch, hd]

end Sys2Proof.Machine
end

section
/-! PROOFS. SqrtTS on a square (R107, R108): the loop's invariant, the pass that keeps it and shrinks r, and the root it ends
with; from them SQRT (R110). -/

namespace Sys2Proof.Machine
open Sys2Proof Sys2Proof.Config

/-! ## The inner loop (R107) -/

/-- The inner loop counts to the least m with b^(2^m) = 1. -/
theorem squaringsToOne_mont_of_least (n : Nat) : ∀ {b m : Nat} (j : Nat), m < n → (b : ZMod q) ^ 2 ^ m = 1 →
    (∀ i < m, (b : ZMod q) ^ 2 ^ i ≠ 1) → squaringsToOne (mont b) j n = some (j + m) := by
  have hstop (b : Nat) : mont b = ONE ↔ (b : ZMod q) ^ 2 ^ 0 = 1 := by
    rw [← mont_one, mont_eq_mont_iff, Nat.cast_one, pow_zero, pow_one]
  have hsquare (b i : Nat) : ((b * b : Nat) : ZMod q) ^ 2 ^ i = (b : ZMod q) ^ 2 ^ (i + 1) := by
    rw [Nat.cast_mul, ← sq, ← pow_mul, ← pow_succ']
  induction n with
  | zero => intro b m j hm; exact absurd hm (Nat.not_lt_zero m)
  | succ n ih =>
    intro b m j hm hone hleast
    rw [squaringsToOne]
    cases m with
    | zero => rw [if_pos ((hstop b).2 hone), Nat.add_zero]
    | succ m =>
      have hnext : squaringsToOne (mont (b * b)) (j + 1) n = some (j + 1 + m) :=
        ih (j + 1) (Nat.lt_of_succ_lt_succ hm) ((hsquare b m).trans hone) fun i hi => by
          rw [hsquare]; exact hleast (i + 1) (Nat.succ_lt_succ hi)
      rw [if_neg (mt (hstop b).1 (hleast 0 m.succ_pos)), montMul_mont, hnext, Nat.add_right_comm, Nat.add_assoc]

/-! ## The loop (R107, R108) -/

/-- R108's invariant on the represented values: "y^2 = x·b, the order of b divides 2^(r−1), and g has order exactly 2^r". -/
structure SqrtInvariant (a g r y b : Nat) : Prop where
  r_pos : 0 < r
  order_g : (g : ZMod q) ^ 2 ^ (r - 1) = -1
  order_b : (b : ZMod q) ^ 2 ^ (r - 1) = 1
  square : (y : ZMod q) * y = a * b

/-- "So m < r at every pass" (R108). -/
theorem SqrtInvariant.exists_least {a g r y b : Nat} (h : SqrtInvariant a g r y b) :
    ∃ m < r, (b : ZMod q) ^ 2 ^ m = 1 ∧ ∀ i < m, (b : ZMod q) ^ 2 ^ i ≠ 1 := by
  classical
  have hex : ∃ m, (b : ZMod q) ^ 2 ^ m = 1 := ⟨r - 1, h.order_b⟩
  have hle : Nat.find hex ≤ r - 1 := Nat.find_min' hex h.order_b
  exact ⟨Nat.find hex, Nat.lt_of_le_pred h.r_pos hle, Nat.find_spec hex, fun i hi => Nat.find_min hex hi⟩

/-- A pass with m = k + 1 keeps the invariant: b^(2^k) and g'^(2^k) are both -1, so their product is 1. -/
theorem SqrtInvariant.pass {a g r y b k c : Nat} (h : SqrtInvariant a g r y b) (hk : k + 1 < r)
    (hc : c = g ^ 2 ^ (r - (k + 1) - 1)) (hone : (b : ZMod q) ^ 2 ^ (k + 1) = 1) (hne : (b : ZMod q) ^ 2 ^ k ≠ 1) :
    SqrtInvariant a (c * c) (k + 1) (y * c) (b * (c * c)) := by
  have hq : Fact q.Prime := ⟨q_prime⟩
  have hg : ((c * c : Nat) : ZMod q) ^ 2 ^ k = -1 := by
    have hexp : r - (k + 1) - 1 + 1 + k = r - 1 := by omega
    rw [hc, ← sq, ← pow_mul, ← pow_succ, Nat.cast_pow, ← pow_mul, ← pow_add, hexp, h.order_g]
  have hb : (b : ZMod q) ^ 2 ^ k = -1 := by
    rw [pow_succ, pow_mul] at hone
    exact (sq_eq_one_iff.1 hone).resolve_left hne
  refine ⟨k.succ_pos, hg, ?_, ?_⟩
  · rw [Nat.add_sub_cancel, Nat.cast_mul, mul_pow, hg, hb, neg_one_mul, neg_neg]
  · calc ((y * c : Nat) : ZMod q) * (y * c : Nat) = y * y * (c * c) := by push_cast; ring
      _ = a * (b * (c * c) : Nat) := by rw [h.square]; push_cast; ring

/-- "r strictly decreases, and the loop ends ... returning y with y^2 = x" (R108). -/
theorem SqrtInvariant.sqrtLoop_eq_root {a : Nat} (n : Nat) : ∀ {g r y b : Nat}, SqrtInvariant a g r y b → r ≤ n →
    ∃ z : Nat, sqrtLoop (mont g) r (mont y) (mont b) n = .root (mont z) ∧ (z : ZMod q) * z = a := by
  induction n with
  | zero => intro g r y b h hr; exact absurd h.r_pos (Nat.not_lt.2 hr)
  | succ n ih =>
    intro g r y b h hr
    obtain ⟨m, hm, hone, hleast⟩ := h.exists_least
    rw [sqrtLoop, squaringsToOne_mont_of_least r 0 hm hone hleast, Nat.zero_add, Option.elim_some]
    cases m with
    | zero =>
      rw [pow_zero, pow_one] at hone
      exact ⟨y, if_pos rfl, by rw [h.square, hone, mul_one]⟩
    | succ k =>
      simp only [if_neg k.succ_ne_zero, squareTimes_mont, montMul_mont]
      exact ih (h.pass hm rfl hone (hleast k k.lt_succ_self)) (by omega)

/-! ## SqrtTS (R107, R108) -/

/-- The invariant holds at the start: y = a^((T+1)/2) and b = a^T, and the legal SQRT_G has order 2^22. -/
theorem sqrtInvariant_start {a g : Nat} (hg : (g : ZMod q) ^ 2 ^ (S - 1) = -1) (ha : (a : ZMod q) ^ LEGEXP = 1) :
    SqrtInvariant a g S (a ^ (SQRTEXP + 1)) (a ^ T) where
  r_pos := by decide
  order_g := hg
  order_b := by rw [Nat.cast_pow, ← pow_mul, T_mul_two_pow, ha]
  square := by
    have hexp : SQRTEXP + 1 + (SQRTEXP + 1) = T + 1 := by decide
    rw [Nat.cast_pow, Nat.cast_pow, ← pow_add, hexp, pow_succ']

/-- "0 exactly when x = 0" (R108). -/
theorem sqrtTS_zero (g : Nat) : sqrtTS g 0 = .root 0 := by
  rw [← mont_reg q_pos, sqrtTS_mont, mont_reg q_pos, if_pos modExp_LEGEXP_zero]

/-- SqrtTS finds a root of a non-zero square with any SQRT_G of order 2^22. -/
theorem sqrtTS_of_square {g x : Nat} (hg : g < q) (hord : squareTimes g (S - 1) = q - ONE) (hx : x < q) (h0 : x ≠ 0)
    (hsq : IsSquareModQ x) : ∃ z : Nat, sqrtTS g x = .root (mont z) ∧ montMul (mont z) (mont z) = x := by
  have hleg : modExp (mont (reg x)) LEGEXP = ONE := by rw [mont_reg hx, modExp_LEGEXP_of_square hx h0 hsq]
  have ha : (reg x : ZMod q) ^ LEGEXP = 1 := by
    rw [modExp_mont, ← mont_one, mont_eq_mont_iff, Nat.cast_pow, Nat.cast_one] at hleg
    exact hleg
  have hgen : (reg g : ZMod q) ^ 2 ^ (S - 1) = -1 := by
    rw [← mont_reg hg, squareTimes_mont_eq_minus_one_iff] at hord
    exact hord
  obtain ⟨z, hz, hzz⟩ := (sqrtInvariant_start hgen ha).sqrtLoop_eq_root S le_rfl
  have heq := sqrtTS_mont g (reg x)
  rw [hleg, if_neg (by decide), if_pos rfl, ← mont_reg hg, hz, mont_reg hg, mont_reg hx] at heq
  refine ⟨z, heq, ?_⟩
  rw [montMul_mont, ← mont_reg hx, mont_eq_mont_iff, Nat.cast_mul, hzz]

/-- SqrtTS answers ABSENT on a non-square, which is never 0. -/
theorem sqrtTS_of_not_square {x : Nat} (g : Nat) (hx : x < q) (hsq : ¬ IsSquareModQ x) : sqrtTS g x = .absent := by
  have h0 : x ≠ 0 := fun h => hsq ⟨0, by rw [h]⟩
  rw [sqrtTS_absent_iff hx h0, modExp_LEGEXP_of_not_square hx hsq]
  decide

/-! ## SQRT (R110) -/

theorem exec_sqrt_of_root {s : State} {rd rs1 : Reg} {y : Nat} (h : sqrtTS s.sqrtG.toNat (s.reg rs1) = .root y) :
    exec (.sqrt rd rs1) s = .next { s with
      f := s.f.set rd.val (elemOf y), absent := false, busy := false, done := true } := by
  rw [exec_sqrt, h]
  exact completed_eq s _ s.dout s.result false

theorem exec_sqrt_of_absent {s : State} {rs1 : Reg} (rd : Reg) (h : sqrtTS s.sqrtG.toNat (s.reg rs1) = .absent) :
    exec (.sqrt rd rs1) s = .next { s with absent := true, busy := false, done := true } := by
  rw [exec_sqrt, h]
  exact completed_eq s s.f s.dout s.result true

/-- Settles O46: SqrtTS answers 0 on 0, a root on a non-zero square, and ABSENT on a non-square. -/
theorem squareRootOrAbsent : Obligations.SquareRootOrAbsent := by
  intro s rd rs1 hx hg
  refine ⟨fun hsq => ?_, fun hsq => exec_sqrt_of_absent rd (sqrtTS_of_not_square _ hx hsq)⟩
  obtain ⟨hlt, hord⟩ := hg
  by_cases h0 : s.reg rs1 = 0
  · have hroot : sqrtTS s.sqrtG.toNat (s.reg rs1) = .root 0 := by rw [h0, sqrtTS_zero]
    exact ⟨0, q_pos, by rw [montMul_zero q_pos, h0], fun _ => rfl, exec_sqrt_of_root hroot⟩
  · obtain ⟨z, hroot, hzz⟩ := sqrtTS_of_square hlt hord hx h0 hsq
    exact ⟨mont z, mont_lt z, hzz, fun h => absurd h h0, exec_sqrt_of_root hroot⟩

end Sys2Proof.Machine
end

section
/-! PROOFS. CMP (R111): the order of the regular values, and equality of the registers. -/

namespace Sys2Proof.Machine
open Sys2Proof Sys2Proof.Config

theorem compareResult_of_lt {a b : Nat} (h : a < b) : compareResult a b = resultMinusOne := by
  rw [compareResult, if_pos h]

theorem compareResult_of_gt {a b : Nat} (h : b < a) : compareResult a b = resultPlusOne := by
  rw [compareResult, if_neg h.not_gt, if_neg h.ne']

/-- Settles O49: FromMont gives the regular values that CMP orders, and is injective below q, so 0 means equal registers. -/
theorem compareOrdersRegularValues : Obligations.CompareOrdersRegularValues := by
  intro s rs1 rs2 hx hy
  refine ⟨compareResult (reg (s.reg rs1)) (reg (s.reg rs2)), ?_,
    compareResult_of_lt, (compareResult_eq_zero_iff _ _).2, compareResult_of_gt, ?_⟩
  · rw [exec_cmp, completed_setResult, fromMont_eq hx, fromMont_eq hy]
  · rw [← fromMont_eq hx, ← fromMont_eq hy]
    exact compareResult_fromMont_eq_zero_iff hx hy

end Sys2Proof.Machine
end

section
/-! PROOFS. The engine's step and its progress (R114, R117, R122): with BUSY = 0 it has no step, with BUSY = 1 it runs L.CMD,
and from a legal state that completion never stops. -/

namespace Sys2Proof.Machine
open Sys2Proof Sys2Proof.Config

/-! ## Whose step it is (R16, R114, R122) -/

/-- Settles O22, place by place. -/
theorem stepRunsTheLatchedCommand : Obligations.StepRunsTheLatchedCommand := fun _ _ hb hd =>
  ⟨fun ha => step_of_busy_nil hb ha hd, fun _ ha => step_of_busy_wait hb ha hd, fun _ ha => step_of_busy_engine hb ha hd⟩

theorem step_of_idle_nil {s : State} (hb : s.busy = false) (ha : s.agenda = []) : step s = .next s := by
  simp only [step, turn, ha, hb, Bool.false_eq_true, if_false]

theorem step_of_idle_engine {s : State} {rest : List Arrival} (hb : s.busy = false) (ha : s.agenda = .engine :: rest) :
    step s = .next { s with agenda := rest } := by
  simp only [step, turn, ha, hb, Bool.false_eq_true, if_false]

/-- Settles O24, place by place. -/
theorem idleEngineHasNoStep : Obligations.IdleEngineHasNoStep := fun _ hb =>
  ⟨step_of_idle_nil hb, fun _ ha => step_of_idle_wait hb ha, fun _ ha => step_of_idle_engine hb ha⟩

theorem step_of_reset {s : State} {rest : List Arrival} (ha : s.agenda = .reset :: rest) :
    step s = .next (resetBlock { s with agenda := rest }) := by
  simp only [step, turn, ha]

/-! ## The completion of an accepted command (R102, R108, R117) -/

/-- The loops of SqrtTS end on every register below q: at 0, on a square and on a non-square. -/
theorem sqrtTS_ne_stuck {s : State} (hg : SqrtGLegal s) {x : Nat} (hx : x < q) : sqrtTS s.sqrtG.toNat x ≠ .stuck := by
  obtain ⟨hlt, hord⟩ := hg
  by_cases hsq : IsSquareModQ x
  · by_cases h0 : x = 0
    · rw [h0, sqrtTS_zero]
      nofun
    · obtain ⟨z, hz, -⟩ := sqrtTS_of_square hlt hord hx h0 hsq
      rw [hz]
      nofun
  · rw [sqrtTS_of_not_square _ hx hsq]
    nofun

/-- A well-formed command has an effect: Inverse, BatchInvert and SqrtTS end below q, and BINV's ranges fit. -/
theorem exists_effectOf {s : State} {i : Instr} (hf : Canonical s) (hg : SqrtGLegal s) (hw : WellFormed i = true) :
    ∃ e, effectOf s i = .ok e := by
  cases i with
  | inv rd rs1 =>
    obtain ⟨v, hv, -⟩ := inverse_of_lt (hf rs1)
    exact ⟨_, by rw [effectOf, hv]; rfl⟩
  | div rd rs1 rs2 =>
    obtain ⟨v, hv, -⟩ := inverse_of_lt (hf rs2)
    exact ⟨_, by rw [effectOf, hv]; rfl⟩
  | binv rd rs1 n =>
    have hfit : binvRangesFit rd rs1 n = true := hw
    obtain ⟨vs, hvs, -⟩ := batchInverse_elementwise (regRange_lt hf rs1 (immValue n))
    exact ⟨_, by rw [effectOf, if_pos hfit, hvs]; rfl⟩
  | sqrt rd rs1 =>
    have hends := sqrtTS_ne_stuck hg (hf rs1)
    rw [effectOf]
    generalize sqrtTS _ _ = a at hends
    cases a with
    | root y => exact ⟨_, rfl⟩
    | absent => exact ⟨_, rfl⟩
    | stuck => exact absurd rfl hends
  | _ => exact ⟨_, rfl⟩

/-- In a legal state the command in flight completes, whatever is still to arrive. -/
theorem Legal.exists_completion {s : State} (h : Legal s) (hb : s.busy = true) :
    ∃ i, decode s.lcmd = .ok i ∧ ∀ l : List Arrival, ∃ t, exec i { s with agenda := l } = .next t := by
  obtain ⟨i, hd, hw, -⟩ := h.latch hb
  refine ⟨i, hd, fun l => ?_⟩
  obtain ⟨e, he⟩ := exists_effectOf (h.withAgenda l).canonical (h.withAgenda l).sqrtG hw
  exact ⟨_, by rw [exec_eq, he, effectOutcome, completed]⟩

/-! ## Progress (R42, R117) -/

/-- An empty agenda, a WAIT and an engine mark: the idle engine has no step, and the busy one completes. -/
theorem Legal.exists_next_of_engine {s : State} (h : Legal s)
    (hplace : s.agenda = [] ∨ (∃ rest, s.agenda = .wait :: rest) ∨ ∃ rest, s.agenda = .engine :: rest) :
    ∃ t, step s = .next t := by
  cases hb : s.busy with
  | false =>
    obtain ha | ⟨rest, ha⟩ | ⟨rest, ha⟩ := hplace
    · exact ⟨_, step_of_idle_nil hb ha⟩
    · exact ⟨_, step_of_idle_wait hb ha⟩
    · exact ⟨_, step_of_idle_engine hb ha⟩
  | true =>
    obtain ⟨i, hd, hcompletes⟩ := h.exists_completion hb
    obtain ha | ⟨rest, ha⟩ | ⟨rest, ha⟩ := hplace
    · rw [step_of_busy_nil hb ha hd]
      exact hcompletes s.agenda
    · rw [step_of_busy_wait hb ha hd]
      exact hcompletes s.agenda
    · rw [step_of_busy_engine hb ha hd]
      exact hcompletes rest

/-- A host access has a next state if it is defined, and is refused if it is not (R41, R42). -/
theorem step_of_access {s : State} {width : Nat} {off : BitVec 8}
    (h : (∃ rest, s.agenda = .read width off :: rest) ∨ ∃ w rest, s.agenda = .write width off w :: rest) :
    (∃ t, step s = .next t) ∨ (accessDefined width off = false ∧ ∃ r, step s = .refused r) := by
  by_cases hdef : accessDefined width off = true
  · left
    obtain ⟨rfl, hoff⟩ := accessDefined_eq_true_iff.1 hdef
    obtain ⟨rest, ha⟩ | ⟨w, rest, ha⟩ := h
    · exact ⟨_, step_of_read hoff ha⟩
    · exact ⟨_, step_of_write hoff ha⟩
  · right
    have hundef := not_and_or.1 (mt accessDefined_eq_true_iff.2 hdef)
    refine ⟨Bool.eq_false_iff.2 hdef, .undefinedHostAccess width off, ?_⟩
    obtain ⟨rest, ha⟩ | ⟨w, rest, ha⟩ := h
    · exact (undefinedAccessIsRefused s width off 0#64 rest hundef).1 ha
    · exact (undefinedAccessIsRefused s width off w rest hundef).2 ha

/-- A legal state has a next state, or its next arrival is an undefined access and is refused. -/
theorem Legal.step_next_or_refused {s : State} (h : Legal s) :
    (∃ t, step s = .next t) ∨ (agendaDefined s.agenda = false ∧ ∃ r, step s = .refused r) := by
  cases ha : s.agenda with
  | nil => exact .inl (h.exists_next_of_engine (.inl ha))
  | cons a rest =>
    have access : ∀ {width off}, agendaDefined (a :: rest) = (accessDefined width off && agendaDefined rest) →
        (∃ t, step s = .next t) ∨ (accessDefined width off = false ∧ ∃ r, step s = .refused r) →
        (∃ t, step s = .next t) ∨ (agendaDefined (a :: rest) = false ∧ ∃ r, step s = .refused r) :=
      fun hall hstep => hstep.imp_right (And.imp_left fun hdef => by rw [hall, hdef, Bool.false_and])
    cases a with
    | read width off => exact access rfl (step_of_access (.inl ⟨rest, ha⟩))
    | write width off w => exact access rfl (step_of_access (.inr ⟨w, rest, ha⟩))
    | wait => exact .inl (h.exists_next_of_engine (.inr (.inl ⟨rest, ha⟩)))
    | engine => exact .inl (h.exists_next_of_engine (.inr (.inr ⟨rest, ha⟩)))
    | reset => exact .inl ⟨_, step_of_reset ha⟩

/-- Settles O56: the only other outcome of a step is the refusal of an undefined access. -/
theorem noAcceptedCommandFaultsOrHangs : Obligations.NoAcceptedCommandFaultsOrHangs := by
  intro s h
  obtain ⟨t, ht⟩ | ⟨hundef, r, hr⟩ := h.step_next_or_refused
  · exact ⟨by rw [ht]; nofun, fun _ => ⟨t, ht⟩⟩
  · exact ⟨by rw [hr]; nofun, fun hdef => absurd hdef (by rw [hundef]; exact Bool.false_ne_true)⟩

end Sys2Proof.Machine
end

section
/-! PROOFS. Issue on the bits of the word, host accesses while a command is in flight, and the interrupt (R112, R113, R119). -/

namespace Sys2Proof.Machine
open Sys2Proof Sys2Proof.Config

/-! ## The issue rules on the bits of the word (R112) -/

theorem issue_of_busy {s : State} (hb : s.busy = true) (w : Word) : s.issue w = s.recordError .busy := by
  rw [State.issue, if_pos hb]

theorem issue_of_decode_error {s : State} {w : Word} {e : DecodeReject} (hb : s.busy = false)
    (hd : decode w = .error e) : s.issue w = s.refuse .illegal := by
  simp only [State.issue, hb, hd, Bool.false_eq_true, if_false]

theorem issue_of_decode_ok {s : State} {w : Word} {i : Instr} (hb : s.busy = false) (hd : decode w = .ok i) :
    s.issue w =
      if ¬ WellFormed i = true then s.refuse .badRange
      else if loadsRaw i = true ∧ (limbsValue s.din).toNat ≥ q then s.refuse .noncanonical
      else s.latch w := by
  simp only [State.issue, hb, hd, Bool.false_eq_true, if_false, Bool.not_eq_true', Bool.not_eq_true, Bool.and_eq_true,
    decide_eq_true_eq]

theorem loadsRaw_iff_opcodeOf (i : Instr) : loadsRaw i = true ↔ opcodeOf i = 0x01#8 := by
  cases i <;> simp [loadsRaw, opcodeOf]

/-- The ranges of BINV in the fields RD, RS1 and IMM of a word: R105's refusal. -/
abbrev RangePastEnd (w : Word) : Prop :=
  (w.extractLsb' 32 32).toNat > 16 ∨ (w.extractLsb' 12 4).toNat + (w.extractLsb' 32 32).toNat > 16 ∨
    (w.extractLsb' 8 4).toNat + (w.extractLsb' 32 32).toNat > 16

theorem opcodeOf_of_decode {w : Word} {i : Instr} (hd : decode w = .ok i) : w.extractLsb' 0 8 = opcodeOf i :=
  commandOf_opc (decode_ok_iff.1 hd).2

theorem wellFormed_of_not_binv {i : Instr} (h : opcodeOf i ≠ 0x2A#8) : WellFormed i = true := by
  cases i with
  | binv rd rs1 n => exact absurd rfl h
  | _ => rfl

/-- A word that decodes is ill-formed exactly when it is a BINV with a range past F[15] (R105). -/
theorem not_wellFormed_iff {w : Word} {i : Instr} (hd : decode w = .ok i) :
    ¬ WellFormed i = true ↔ w.extractLsb' 0 8 = 0x2A#8 ∧ RangePastEnd w := by
  by_cases hopc : w.extractLsb' 0 8 = 0x2A#8
  · have hbinv : decode w = .ok (.binv (regOf (fieldsOf w).rd) (regOf (fieldsOf w).rs1) (fieldsOf w).imm) :=
      decode_of_row (decode_ok_iff.1 hd).1 rfl hopc
    obtain rfl := Except.ok.inj (hd.symm.trans hbinv)
    exact (not_congr (binvRangesFit_iff_not _ _ _)).trans (not_not.trans (iff_and_self.2 fun _ => hopc))
  · have hwf : WellFormed i = true := wellFormed_of_not_binv (opcodeOf_of_decode hd ▸ hopc)
    exact iff_of_false (not_not.2 hwf) fun hpast => hopc hpast.1

/-- The issue rules in their order, on the bits of the word. -/
theorem issue_eq (s : State) (w : Word) :
    s.issue w =
      if s.busy then s.recordError .busy
      else if w.extractLsb' 0 8 ∉ opcodeMap ∨ w.extractLsb' 20 12 ≠ 0#12 then s.refuse .illegal
      else if w.extractLsb' 0 8 = 0x2A#8 ∧ RangePastEnd w then s.refuse .badRange
      else if w.extractLsb' 0 8 = 0x01#8 ∧ (limbsValue s.din).toNat ≥ q then s.refuse .noncanonical
      else s.latch w := by
  by_cases hb : s.busy = true
  · rw [if_pos hb, issue_of_busy hb]
  · rw [if_neg hb]
    have hidle : s.busy = false := Bool.eq_false_iff.2 hb
    by_cases hill : w.extractLsb' 0 8 ∉ opcodeMap ∨ w.extractLsb' 20 12 ≠ 0#12
    · obtain ⟨e, hd⟩ := exists_decode_error hill
      rw [if_pos hill, issue_of_decode_error hidle hd]
    · rw [if_neg hill]
      rw [not_or, not_not, not_not] at hill
      obtain ⟨i, hd⟩ := exists_decode_iff.2 hill
      have hraw : loadsRaw i = true ↔ w.extractLsb' 0 8 = 0x01#8 := by
        rw [loadsRaw_iff_opcodeOf, opcodeOf_of_decode hd]
      rw [issue_of_decode_ok hidle hd]
      exact if_congr (not_wellFormed_iff hd) rfl (if_congr (and_congr_left' hraw) rfl rfl)

/-- Settles O8: the step of a CMD write is the issue, with its rules on the bits of the word. -/
theorem issueFollowsTheRuleOrder : Obligations.IssueFollowsTheRuleOrder := fun s w rest ha =>
  (step_of_hostW (r := .cmd) ha).trans (congrArg Host.Outcome.next (issue_eq { s with agenda := rest } w))

/-! ## Host accesses while a command is in flight (R113) -/

/-- The command in flight and every result of the commands before it are those of `s`. -/
structure SameCommandAndResults (s t : State) : Prop where
  busy : t.busy = s.busy
  lcmd : t.lcmd = s.lcmd
  ldin : t.ldin = s.ldin
  f : t.f = s.f
  dout : t.dout = s.dout
  result : t.result = s.result
  absent : t.absent = s.absent
  sqrtG : t.sqrtG = s.sqrtG

theorem sameCommandAndResults_writeWindow {s : State} (hb : s.busy = true) (off : BitVec 8) (w : Word) :
    SameCommandAndResults s (s.writeWindow off w) := by
  obtain hw | hw | hw | ⟨k, hw⟩ | hw := writeWindow_cases s off w <;> rw [hw]
  · rw [issue_of_busy hb]
    constructor <;> rfl
  all_goals constructor <;> rfl

theorem sameCommandAndResults_of_access {s t : State} (hb : s.busy = true) (hacc : hostAccessNext s = true)
    (h : step s = .next t) : SameCommandAndResults s t := by
  obtain ⟨hidle, -⟩ | ⟨_, off, rest, -, hr⟩ | ⟨_, off, w, rest, -, hw⟩ | ⟨hidle, -⟩ | ⟨rest, ha, -⟩ |
    ⟨-, i, -, hplace⟩ := step_cases h
  · exact absurd hb (Bool.eq_false_iff.1 hidle)
  · obtain ⟨-, rfl⟩ := hostRead_next hr
    constructor <;> rfl
  · obtain ⟨-, rfl⟩ := hostWrite_next hw
    exact { sameCommandAndResults_writeWindow (s := { s with agenda := rest }) hb off w with }
  · exact absurd hb (Bool.eq_false_iff.1 hidle)
  · simp [hostAccessNext, ha] at hacc
  · obtain ⟨ha | ⟨rest, ha⟩, -⟩ | ⟨rest, ha, -⟩ := hplace <;> simp [hostAccessNext, ha] at hacc

/-- Settles O9: no access touches the command in flight, and a CMD write is the first issue rule. -/
theorem nothingDisturbsTheCommandInFlight : Obligations.NothingDisturbsTheCommandInFlight := by
  intro s t hb hacc h
  have hsame := sameCommandAndResults_of_access hb hacc h
  refine ⟨hsame.busy.trans hb, hsame.lcmd, hsame.ldin, hsame.f, hsame.dout, hsame.result, hsame.absent, hsame.sqrtG,
    fun w rest ha => ?_⟩
  rw [step_of_hostW (r := .cmd) ha] at h
  exact (Host.Outcome.next.inj h).symm.trans (issue_of_busy (s := { s with agenda := rest }) hb w)

/-! ## The interrupt (R119) -/

theorem irq_eq_true_iff (s : State) : s.irq = true ↔ s.ie = true ∧ (s.done = true ∨ s.err = true) := by
  rw [State.irq, Bool.and_eq_true, Bool.or_eq_true]

theorem irq_of_ie_eq_false {s : State} (h : s.ie = false) : s.irq = false := by
  rw [State.irq, h, Bool.false_and]

theorem irq_of_done_err_eq_false {s : State} (hdone : s.done = false) (herr : s.err = false) : s.irq = false := by
  rw [State.irq, hdone, herr, Bool.or_false, Bool.and_false]

/-- Settles O17: the level, and what each way of clearing it leaves of IE, DONE and ERR. -/
theorem interruptIsTheLevelOfDoneOrErr : Obligations.InterruptIsTheLevelOfDoneOrErr := by
  refine ⟨irq_eq_true_iff, fun s w h1 h2 => irq_of_done_err_eq_false ?_ ?_, fun s w h0 => irq_of_ie_eq_false ?_,
    fun s w hb h => ?_, rfl⟩
  · rw [State.writeStatus_done, h1, Bool.not_true, Bool.and_false]
  · rw [State.writeStatus_err, h2, Bool.not_true, Bool.and_false]
  · rw [State.writeCtrl_ie, h0]
  · rw [issue_latched hb h, State.latch_done]

end Sys2Proof.Machine
end

section
/-! PROOFS. What a step does to the agenda and to the results, and from it that every run of a host program ends (R114, R128,
R130, R131). -/

namespace Sys2Proof.Machine
open Sys2Proof Sys2Proof.Config

/-! ## What a host write leaves unchanged (R43, R128) -/

/-- The results of the commands, the ROM and the agenda are those of `s`. -/
structure SameResultsAndAgenda (s t : State) : Prop where
  f : t.f = s.f
  dout : t.dout = s.dout
  result : t.result = s.result
  absent : t.absent = s.absent
  sqrtG : t.sqrtG = s.sqrtG
  agenda : t.agenda = s.agenda

theorem sameResultsAndAgenda_issue (s : State) (w : Word) : SameResultsAndAgenda s (s.issue w) := by
  obtain ⟨-, hi⟩ | ⟨-, c, hi⟩ | ⟨-, hi, -⟩ := issue_cases s w <;> rw [hi] <;> constructor <;> rfl

theorem sameResultsAndAgenda_writeWindow (s : State) (off : BitVec 8) (w : Word) :
    SameResultsAndAgenda s (s.writeWindow off w) := by
  obtain hw | hw | hw | ⟨k, hw⟩ | hw := writeWindow_cases s off w <;> rw [hw]
  · exact sameResultsAndAgenda_issue s w
  all_goals constructor <;> rfl

/-! ## Results change only at a completion or a reset (R128) -/

/-- The engine completes at an empty agenda, a WAIT or an engine mark, never at a host access. -/
theorem hostAccessNext_of_engine_place {s : State}
    (h : (s.agenda = [] ∨ ∃ rest, s.agenda = .wait :: rest) ∨ ∃ rest, s.agenda = .engine :: rest) :
    hostAccessNext s = false := by
  unfold hostAccessNext
  obtain (ha | ⟨rest, ha⟩) | ⟨rest, ha⟩ := h <;> rw [ha]

/-- Settles O10: of the steps, only a reset and a completion write a result, and a completion is the engine's with BUSY = 1. -/
theorem resultsChangeOnlyAtCompletion : Obligations.ResultsChangeOnlyAtCompletion := by
  intro s t hstep hplace hreset
  obtain ⟨-, -, rfl⟩ | ⟨_, off, rest, -, hr⟩ | ⟨_, off, w, rest, -, hw⟩ | ⟨-, rest, -, rfl⟩ | ⟨rest, ha, -⟩ |
    ⟨hb, i, -, hexec⟩ := step_cases hstep
  · exact ⟨rfl, rfl, rfl, rfl, rfl⟩
  · obtain ⟨-, rfl⟩ := hostRead_next hr
    exact ⟨rfl, rfl, rfl, rfl, rfl⟩
  · obtain ⟨-, rfl⟩ := hostWrite_next hw
    obtain ⟨hf, hdout, hresult, habsent, hsqrtG, -⟩ := sameResultsAndAgenda_writeWindow { s with agenda := rest } off w
    exact ⟨hf, hdout, hresult, habsent, hsqrtG⟩
  · exact ⟨rfl, rfl, rfl, rfl, rfl⟩
  · exact absurd ha (hreset rest)
  · have hnoaccess : hostAccessNext s = false :=
      hostAccessNext_of_engine_place (hexec.imp And.left (Exists.imp fun _ => And.left))
    obtain hacc | hidle := hplace
    · exact absurd hacc (Bool.eq_false_iff.1 hnoaccess)
    · exact absurd hb (Bool.eq_false_iff.1 hidle)

/-! ## The agenda, step by step (R16, R114) -/

theorem exec_busy {i : Instr} {s t : State} (h : exec i s = .next t) : t.busy = false :=
  (congrArg State.busy (exec_next h) :)

theorem exec_agenda {i : Instr} {s t : State} (h : exec i s = .next t) : t.agenda = s.agenda :=
  (congrArg State.agenda (exec_next h) :)

/-- A step from a state that is not settled takes the next arrival, or completes the command in flight and takes none. -/
theorem step_takes_arrival_or_completes {s t : State} (hs : ¬ Settled s) (h : step s = .next t) :
    (∃ a, s.agenda = a :: t.agenda) ∨ (t.agenda = s.agenda ∧ s.busy = true ∧ t.busy = false) := by
  obtain ⟨hb, ha, -⟩ | ⟨_, off, rest, ha, hr⟩ | ⟨_, off, w, rest, ha, hw⟩ | ⟨-, rest, ha | ha, rfl⟩ | ⟨rest, ha, rfl⟩ |
    ⟨hb, i, -, ⟨-, hexec⟩ | ⟨rest, ha, hexec⟩⟩ := step_cases h
  · exact absurd ⟨ha, hb⟩ hs
  · obtain ⟨-, rfl⟩ := hostRead_next hr
    exact .inl ⟨_, ha⟩
  · obtain ⟨-, rfl⟩ := hostWrite_next hw
    have hrest := (sameResultsAndAgenda_writeWindow { s with agenda := rest } off w).agenda
    exact .inl ⟨_, by rw [hrest, ha]⟩
  · exact .inl ⟨_, ha⟩
  · exact .inl ⟨_, ha⟩
  · exact .inl ⟨_, ha⟩
  · exact .inr ⟨exec_agenda hexec, hb, exec_busy hexec⟩
  · exact .inl ⟨_, by rw [exec_agenda hexec, ha]⟩

theorem agendaDefined_of_cons {a : Arrival} {l : List Arrival} (h : agendaDefined (a :: l) = true) :
    agendaDefined l = true := by
  rw [agendaDefined, List.all_cons, Bool.and_eq_true] at h
  exact h.2

theorem agendaDefined_of_step {s t : State} (hs : ¬ Settled s) (h : step s = .next t)
    (hdef : agendaDefined s.agenda = true) : agendaDefined t.agenda = true := by
  obtain ⟨a, ha⟩ | ⟨ha, -⟩ := step_takes_arrival_or_completes hs h
  · exact agendaDefined_of_cons (ha ▸ hdef)
  · exact ha ▸ hdef

/-! ## Every run settles (R130, R131) -/

/-- A bound on the steps to a settled state: an arrival takes a step and, if it is accepted as a command, a completion; the
command in flight takes its completion. -/
def stepsLeft (s : State) : Nat := 2 * s.agenda.length + s.busy.toNat

theorem stepsLeft_le (s : State) : stepsLeft s ≤ 2 * s.agenda.length + 1 :=
  Nat.add_le_add_left s.busy.toNat_le _

theorem stepsLeft_lt_of_step {s t : State} (hs : ¬ Settled s) (h : step s = .next t) : stepsLeft t < stepsLeft s := by
  obtain ⟨a, ha⟩ | ⟨ha, hb, hb'⟩ := step_takes_arrival_or_completes hs h
  · calc stepsLeft t ≤ 2 * t.agenda.length + 1 := stepsLeft_le t
      _ < 2 * s.agenda.length := by rw [ha, List.length_cons]; omega
      _ ≤ stepsLeft s := Nat.le_add_right _ _
  · rw [stepsLeft, stepsLeft, ha, hb, hb']
    exact Nat.lt_succ_self _

/-- From a legal state with defined accesses the block steps until it settles, since `stepsLeft` falls at every step. -/
theorem Legal.run_settles {s : State} (h : Legal s) (hdef : agendaDefined s.agenda = true) :
    ∃ k t, k ≤ stepsLeft s ∧ core.run k s = .next t ∧ Settled t ∧ Legal t := by
  induction hn : stepsLeft s using Nat.strong_induction_on generalizing s with
  | _ n ih =>
    by_cases hs : Settled s
    · exact ⟨0, s, Nat.zero_le n, rfl, hs, h⟩
    · obtain ⟨u, hu⟩ := (noAcceptedCommandFaultsOrHangs s h).2 hdef
      have hlt : stepsLeft u < n := hn ▸ stepsLeft_lt_of_step hs hu
      obtain ⟨k, t, hk, hrun, ht⟩ :=
        ih _ hlt (everyStepKeepsLegalStates s u h hu) (agendaDefined_of_step hs hu hdef) rfl
      exact ⟨k + 1, t, hk.trans_lt hlt, (run_succ hu).trans hrun, ht⟩

/-- Settles O57: `stepsLeft` is at most twice the number of arrivals and one more. -/
theorem everyRunSettles : Obligations.EveryRunSettles := by
  intro s h hdef
  obtain ⟨k, t, hk, hrun, ht⟩ := h.run_settles hdef
  exact ⟨k, t, hk.trans (stepsLeft_le s), hrun, ht⟩

end Sys2Proof.Machine
end

section
/-! PROOFS. The state after reset (R123 - R125), and words written out from the encoding (95_test_vectors.md). -/

namespace Sys2Proof.Machine
open Sys2Proof Sys2Proof.Config

/-! ## Reset -/

/-- Settles O21: the turn of a reset arrival is the reset of the block, whatever is in flight. -/
theorem resetAbandonsTheCommandInFlight : Obligations.ResetAbandonsTheCommandInFlight := fun _ _ ha => step_of_reset ha

theorem reset_readWindow_eq_zero :
    ∀ off ∈ [0x00#8, 0x08#8, 0x10#8, 0x18#8, 0x20#8, 0x28#8, 0x30#8, 0x38#8, 0x40#8, 0x48#8, 0x50#8, 0x58#8],
      State.reset.readWindow off = 0#64 := by decide

/-- Settles O20: each item is read off the state after reset; Q0-Q3 read the same in every state. -/
theorem resetStateHasTheRuleValues : Obligations.ResetStateHasTheRuleValues := by
  obtain ⟨-, -, -, -, -, -, -, -, -, -, -, -, hq0, hq1, hq2, hq3⟩ := windowReadsReturnTheRegisters.1 State.reset
  have hreg : ∀ r : Reg, State.reset.reg r = 0 := by decide
  exact ⟨hreg, rfl, rfl, rfl, rfl, rfl, rfl, rfl, rfl, irq_of_ie_eq_false rfl, rfl, reset_readWindow_eq_zero,
    hq0, hq1, hq2, hq3⟩

/-- After reset the registers and DOUT are 0, nothing is in flight, and SQRT_G is the default. -/
theorem legal_reset : Legal State.reset where
  canonical := (by decide : ∀ r : Reg, State.reset.reg r < q)
  status := ⟨Bool.false_ne_true.elim, fun _ => rfl⟩
  latch := Bool.false_ne_true.elim
  result := .inl rfl
  dout := (by decide : (limbsValue State.reset.dout).toNat < q)
  sqrtG := ⟨by decide, squareTimes_sqrtGDefault⟩

/-- Settles O54: `legal_reset`, with BUSY and RESULT read off the state. -/
theorem resetStateIsLegal : Obligations.ResetStateIsLegal := ⟨legal_reset, rfl, rfl⟩

/-! ## Sample words -/

theorem decode_of_opc_not_mem {w : Word} (hrsv : (fieldsOf w).rsv = 0#12) (hopc : (fieldsOf w).opc ∉ opcodeMap) :
    decode w = .error .unknownOpcode := by
  have hnone : commandOf (fieldsOf w) = none :=
    Option.eq_none_iff_forall_ne_some.2 fun i hi => hopc (exists_commandOf_iff.1 ⟨i, hi⟩)
  rw [decode, if_pos hrsv, hnone]

/-- Settles O7: nine words match their command's row of the opcode map, one has RSV set, and two have an OPC outside it. -/
theorem sampleWordsDecode : Obligations.SampleWordsDecode :=
  ⟨decode_of_row rfl rfl rfl, decode_of_row rfl rfl rfl, decode_of_row rfl rfl rfl, decode_of_row rfl rfl rfl,
    decode_of_row rfl rfl rfl, decode_of_row rfl rfl rfl, decode_of_row rfl rfl rfl, decode_of_row rfl rfl rfl,
    decode_of_row rfl rfl rfl, unusedFieldsAreIgnored.2 _ (by decide), decode_of_opc_not_mem rfl (by decide),
    decode_of_opc_not_mem rfl (by decide)⟩

end Sys2Proof.Machine
end
